-- ==== Sys2Proof/Word.lean ====
section
/-! DEFINITION. The word types of the block (00_scope.md R3, R7; 30_encoding.md R80, R81). -/

namespace Sys2Proof

/-- A command word on `CMD_Q` and a response word on `RSP_T`: `CW` = 32 bits (R7, R60, R80). -/
abbrev CmdWord := BitVec 32

/-- A configuration register, `RW` = 24 bits (R7, R21). -/
abbrev RegWord := BitVec 24

/-- One sample as a 16-bit pattern (`SW` = 16, R3, R7); `toInt` of it is the signed value (R10 `sext_16`). -/
abbrev Sample := BitVec 16

/-- A register number, the 4-bit field `REG` of a command word (R21, R81). -/
abbrev RegNum := BitVec 4

end Sys2Proof
end

