-- ==== Sys2Proof/Config.lean ====
section
/-! DEFINITION. The implementation parameters of 00_scope.md R7, which the spec leaves open and asks a model to take as
arguments (92_eei_decisions.md, open parameters). They reach a step through the field `params` of the state
(notes/assumptions/1.md). -/

namespace Sys2Proof

/-- `CAST_RND`: how the delay line's casts remove a fraction (R7, R112). -/
inductive CastRnd where
  | trunc
  | floor
  | nearestEven
  deriving DecidableEq, Repr

/-- `DIST_TIES`: the tie rule of `round` in the distortion effect (R7, R113). -/
inductive DistTies where
  | even
  | away
  deriving DecidableEq, Repr

/-- The three open parameters (R7). -/
structure Params where
  /-- `CMAX`, the number of words of physical delay storage. -/
  cmax : Nat
  castRnd : CastRnd
  distTies : DistTies
  deriving DecidableEq, Repr

/-- The range the spec gives `CMAX`: `1 <= CMAX <= 2^24 - 1` (R7, D5). -/
abbrev Params.wf (p : Params) : Prop := 1 ≤ p.cmax ∧ p.cmax ≤ 2 ^ 24 - 1

/-- The defaults of R7: `CMAX` = 262144, `CAST_RND` = trunc, `DIST_TIES` = even. -/
def Params.default : Params := { cmax := 262144, castRnd := .trunc, distTies := .even }

end Sys2Proof
end

