-- ==== Sys2Proof/Syntax.lean ====
section
/-! DEFINITION. The commands of the block, one constructor per row of spec/opcode_table.json (30_encoding.md R83), and
the verdict of the decoder on a word that is no command (R84). -/

namespace Sys2Proof

/-- The sixteen rows of the opcode table. The eight reserved opcodes carry the 28 bits the table leaves free. -/
inductive Instr where
  /-- `NOP` (R130). -/
  | nop
  /-- `WRC r, v`: write configuration register `r` (R132). -/
  | wrc (r : RegNum) (v : RegWord)
  /-- `RDR r`: read register `r` (R133). -/
  | rdr (r : RegNum)
  /-- `INIT`: construct the effect (R134). -/
  | init
  /-- `OPEN rate`: check the stream's sample rate (R150). -/
  | openStream (rate : BitVec 24)
  /-- `PROC ch, n`: process one block of `n` samples per channel, `ch` = channel count minus one (R152). -/
  | proc (ch : BitVec 1) (n : BitVec 24)
  /-- `END`: end of stream (R158). -/
  | endStream
  /-- `RST`: soft reset (R138). -/
  | rst
  /-- Reserved opcode 0x7 (R90). -/
  | reserved7 (x : BitVec 28)
  /-- Reserved opcode 0x8 (R90). -/
  | reserved8 (x : BitVec 28)
  /-- Reserved opcode 0x9 (R90). -/
  | reserved9 (x : BitVec 28)
  /-- Reserved opcode 0xA (R90). -/
  | reservedA (x : BitVec 28)
  /-- Reserved opcode 0xB (R90). -/
  | reservedB (x : BitVec 28)
  /-- Reserved opcode 0xC (R90). -/
  | reservedC (x : BitVec 28)
  /-- Reserved opcode 0xD (R90). -/
  | reservedD (x : BitVec 28)
  /-- Reserved opcode 0xE (R90). -/
  | reservedE (x : BitVec 28)
  deriving DecidableEq, Repr

/-- The reasons of an `Illegal(sub)` verdict (R84, R90). -/
inductive Illegal where
  /-- The opcode is one of 0x7 to 0xE. -/
  | reservedOpcode
  /-- A field that must be zero is not. -/
  | reservedField
  /-- `WRC` names a register above 7, or `RDR` one above 12. -/
  | badRegister
  deriving DecidableEq, Repr

end Sys2Proof
end

