-- ==== Sys2Proof/Machine/State.lean ====
section
/-! DEFINITION. The state of the block (10_state.md R20 to R49), the reasons a step can stop, and the state after reset. -/

namespace Sys2Proof.Machine

/-- The sequencer phase (R36). The codes 5 to 7 never occur and have no constructor (93_implementation_defined.md U15). -/
inductive Phase where
  | config
  | ready
  | stream
  | done
  | fault
  deriving DecidableEq, Repr

/-- What `STATUS.FAULT_CODE` holds (60_exceptions.md R211). The codes 6 to 15 are never recorded (U15). -/
inductive FaultKind where
  | none
  | configError
  | sampleRateMismatch
  | shapeMismatch
  | unimplemented
  | illegalCommand
  deriving DecidableEq, Repr

/-- A fault of the block with its sub-cause (60_exceptions.md R212 to R216). These are recorded in the state by a fault
entry and are not stops of the model. -/
inductive Cause where
  | badSampleRate
  | badBlockSize
  | reservedCtrl
  | delayExceedsHeadroom
  | bufferTooSmallForBlock
  | capacityExceedsStorage
  | badFeedback
  | badMix
  | sampleRateMismatch
  | stereoIntoMono
  | monoIntoStereo
  | reverb
  | reservedOpcode
  | reservedField
  | badRegister
  | wrongPhase
  | blockTooLong
  deriving DecidableEq, Repr

/-- The four effect kinds of `CTRL[1:0]` (10_state.md R22). -/
inductive EffectKind where
  | distortion
  | delay
  | reverb
  | passthroughStereo
  deriving DecidableEq, Repr

/-- The transforms a `PROC` can apply. The reverb kind has none (44_other_effects.md R194). -/
inductive Transform where
  | distortion
  | delay
  | passthroughStereo
  deriving DecidableEq, Repr

/-- Why a step has no next state. None of these is a fault of the block: a fault of the block is a next state with a
fault record (60_exceptions.md R222). -/
inductive Fault where
  /-- `CMD_Q` is empty, so the engine has no step until the host appends a command (30_encoding.md R96). Raised by
  `step`. Safe: the model does not go on where the block does not (notes/assumptions/3.md). -/
  | idle
  /-- The `PROC` at the head of `CMD_Q` waits for samples, so the engine has no step until the host appends them or
  resets the block (70_reset_and_hazards.md R255). Raised by `execProc`. Safe (notes/assumptions/3.md). -/
  | held
  /-- A read of a `BUF` word that holds an unspecified value (10_state.md R46, R49). Raised by `memRead`. No run reaches
  it. Safe: the model stops (notes/assumptions/2.md). -/
  | bufNoValue
  /-- An access to a `BUF` address at or above `CMAX`, where there is no word (10_state.md R37, 20_memory.md R65).
  Raised by `memRead` and `memWrite`. No run reaches it. Safe: the model stops (notes/assumptions/12.md). -/
  | bufNoWord
  /-- The address computation `mod D` with `D = 0`, for which the spec's `mod` is not defined (00_scope.md R10,
  40_arithmetic.md R123). Raised by `delayTransform`. No run reaches it. Safe: the model stops
  (notes/assumptions/12.md). -/
  | modByZero
  deriving DecidableEq, Repr

/-- An instruction without a meaning in the model. -/
inductive Refusal where
  /-- The instruction has no meaning yet. Raised by an arm of `exec` only, and by none of them now. Safe. -/
  | notModelled (mnemonic : String)
  deriving DecidableEq, Repr

/-- The eight configuration registers, numbers 0 to 7 (10_state.md R21): the source's EffectConfig. -/
structure ConfigRegs where
  ctrl : RegWord
  sampleRate : RegWord
  blockSize : RegWord
  cap : RegWord
  dlen : RegWord
  feedback : RegWord
  mix : RegWord
  volume : RegWord
  deriving DecidableEq, Repr

/-- The delay buffer `BUF` as a list of (address, word) pairs with strictly rising addresses (`Memory.wf`, Ops.lean).
Its unit is the whole 16-bit word (20_memory.md R60, notes/assumptions/4.md). -/
abbrev Memory := List (Nat × Sample)

/-- The architectural state (10_state.md R20). `STATUS` is a view of `phase` and `faultKind`, `ID` is hard-wired in
`State.readReg`, and `params` is the model's own read-only field (notes/assumptions/1.md). -/
structure State where
  /-- The implementation parameters (00_scope.md R7), which no step writes. -/
  params : Params
  /-- Registers 0 to 7 (R21). -/
  cfg : ConfigRegs
  /-- `CURSOR`, register 9 (R32). -/
  cursor : RegWord
  /-- `FAULT_INFO`, register 10 (R34). -/
  faultInfo : BitVec 24
  /-- `FAULT_CMD`, register 11 (R35). -/
  faultCmd : CmdWord
  /-- `PHASE` (R36). -/
  phase : Phase
  /-- `STATUS.FAULT_CODE` (R31). -/
  faultKind : FaultKind
  /-- `BUF` (R37). -/
  buf : Memory
  /-- `CMD_Q`, head first (R38). -/
  cmdQ : List CmdWord
  /-- `IN_Q`, head first (R38). -/
  inQ : List Sample
  /-- `OUT_T`, oldest first (R39). -/
  outT : List Sample
  /-- `RSP_T`, oldest first (R39). -/
  rspT : List CmdWord
  deriving DecidableEq, Repr

/-- Every configuration register 0 (R46). -/
def ConfigRegs.zero : ConfigRegs :=
  { ctrl := 0, sampleRate := 0, blockSize := 0, cap := 0, dlen := 0, feedback := 0, mix := 0, volume := 0 }

/-- The block after the hardware reset at power-on (R46, 70_reset_and_hazards.md R240, R242): registers 0, CONFIG, no
fault recorded, queues empty, `BUF` without values (notes/assumptions/2.md), nothing emitted yet
(notes/assumptions/7.md), and the default parameters of R7 (notes/assumptions/1.md). -/
def State.reset : State :=
  { params := Params.default
    cfg := ConfigRegs.zero
    cursor := 0
    faultInfo := 0
    faultCmd := 0
    phase := .config
    faultKind := .none
    buf := []
    cmdQ := []
    inQ := []
    outT := []
    rspT := [] }

end Sys2Proof.Machine
end

