-- ==== Sys2Proof/Machine/Flags.lean ====
section
/-! DEFINITION. The status bits. The block has no condition codes (10_state.md R42): its only status is the phase and the
fault code, numbered here and laid out in `STATUS` (R31, R36; 60_exceptions.md R211 to R218). -/

namespace Sys2Proof.Machine

/-- The phase number (R36). -/
def Phase.num : Phase → BitVec 3
  | .config => 0
  | .ready => 1
  | .stream => 2
  | .done => 3
  | .fault => 4

/-- `FAULT_CODE` of a fault kind (R211). -/
def FaultKind.code : FaultKind → BitVec 4
  | .none => 0
  | .configError => 1
  | .sampleRateMismatch => 2
  | .shapeMismatch => 3
  | .unimplemented => 4
  | .illegalCommand => 5

/-- The kind a sub-cause belongs to (R212 to R216). -/
def Cause.kind : Cause → FaultKind
  | .badSampleRate => .configError
  | .badBlockSize => .configError
  | .reservedCtrl => .configError
  | .delayExceedsHeadroom => .configError
  | .bufferTooSmallForBlock => .configError
  | .capacityExceedsStorage => .configError
  | .badFeedback => .configError
  | .badMix => .configError
  | .sampleRateMismatch => .sampleRateMismatch
  | .stereoIntoMono => .shapeMismatch
  | .monoIntoStereo => .shapeMismatch
  | .reverb => .unimplemented
  | .reservedOpcode => .illegalCommand
  | .reservedField => .illegalCommand
  | .badRegister => .illegalCommand
  | .wrongPhase => .illegalCommand
  | .blockTooLong => .illegalCommand

/-- The sub-cause number, `FAULT_INFO[3:0]` (R212 to R216). -/
def Cause.sub : Cause → BitVec 4
  | .badSampleRate => 1
  | .badBlockSize => 2
  | .reservedCtrl => 3
  | .delayExceedsHeadroom => 4
  | .bufferTooSmallForBlock => 5
  | .capacityExceedsStorage => 6
  | .badFeedback => 7
  | .badMix => 8
  | .sampleRateMismatch => 1
  | .stereoIntoMono => 1
  | .monoIntoStereo => 2
  | .reverb => 1
  | .reservedOpcode => 1
  | .reservedField => 2
  | .badRegister => 3
  | .wrongPhase => 4
  | .blockTooLong => 5

/-- The `IllegalCommand` sub-cause of a decode verdict (R216, 30_encoding.md R90). -/
def illegalCause : Illegal → Cause
  | .reservedOpcode => .reservedOpcode
  | .reservedField => .reservedField
  | .badRegister => .badRegister

/-- `STATUS` (R31): bits [2:0] the phase, bit [3] zero, bits [7:4] the fault code, bits [23:8] zero. -/
def State.status (s : State) : BitVec 24 :=
  (0 : BitVec 16) ++ s.faultKind.code ++ (0 : BitVec 1) ++ s.phase.num

/-- The level output `fault_o`, 1 exactly while the phase is FAULT (60_exceptions.md R218). -/
def State.faultO (s : State) : Bool := decide (s.phase = .fault)

end Sys2Proof.Machine
end

