-- ==== Sys2Proof/Machine/Operands.lean ====
section
/-! DEFINITION. Operands: the register space read by `RDR` and written by `WRC` (10_state.md R21 to R35), the fields of
`CTRL` (R22), the shape of a block (42_stream_commands.md R152, R155) and the two port crossings of a sample
(40_arithmetic.md R114). -/

namespace Sys2Proof.Machine

/-- `EFFECT_KIND` from its two bits (R22); all four values are legal. -/
def EffectKind.ofBits (b : BitVec 2) : EffectKind :=
  match b.toNat with
  | 0 => .distortion
  | 1 => .delay
  | 2 => .reverb
  | _ => .passthroughStereo

/-- The number of an effect kind (R22), which is the `info` of `ShapeMismatch` and `Unimplemented`
(60_exceptions.md R214, R215). -/
def EffectKind.num : EffectKind → BitVec 20
  | .distortion => 0
  | .delay => 1
  | .reverb => 2
  | .passthroughStereo => 3

/-- `CTRL[1:0]`, the effect kind (R22). -/
def ConfigRegs.kind (c : ConfigRegs) : EffectKind := EffectKind.ofBits (c.ctrl.extractLsb' 0 2)

/-- `CTRL[2]`, `SAT`: saturate on overflow (R22, 40_arithmetic.md R117). -/
def ConfigRegs.sat (c : ConfigRegs) : Bool := c.ctrl.getLsbD 2

/-- `CTRL[23:3]`, the reserved bits, stored as written (R22). -/
def ConfigRegs.ctrlReserved (c : ConfigRegs) : BitVec 21 := c.ctrl.extractLsb' 3 21

/-- `reg[r] <- v` for a configuration register, `r` in 0 to 7 (41_config_commands.md R132). No other register is
written by a command; `execWrc` asks for no other number. -/
def ConfigRegs.write (c : ConfigRegs) (r : RegNum) (v : RegWord) : ConfigRegs :=
  match r.toNat with
  | 0 => { c with ctrl := v }
  | 1 => { c with sampleRate := v }
  | 2 => { c with blockSize := v }
  | 3 => { c with cap := v }
  | 4 => { c with dlen := v }
  | 5 => { c with feedback := v }
  | 6 => { c with mix := v }
  | 7 => { c with volume := v }
  | _ => c

/-- The constant of register 12 (R33). -/
def idValue : CmdWord := 0x01444C46

/-- A register read, zero-extended to 32 bits (R21, 41_config_commands.md R133); `none` for the reserved numbers 13 to
15. `STATUS` is computed and `ID` is hard-wired. -/
def State.readReg (s : State) (r : RegNum) : Option CmdWord :=
  match r.toNat with
  | 0 => some (s.cfg.ctrl.setWidth 32)
  | 1 => some (s.cfg.sampleRate.setWidth 32)
  | 2 => some (s.cfg.blockSize.setWidth 32)
  | 3 => some (s.cfg.cap.setWidth 32)
  | 4 => some (s.cfg.dlen.setWidth 32)
  | 5 => some (s.cfg.feedback.setWidth 32)
  | 6 => some (s.cfg.mix.setWidth 32)
  | 7 => some (s.cfg.volume.setWidth 32)
  | 8 => some (s.status.setWidth 32)
  | 9 => some (s.cursor.setWidth 32)
  | 10 => some (s.faultInfo.setWidth 32)
  | 11 => some s.faultCmd
  | 12 => some idValue
  | _ => none

/-- `cap(k)`, the channel bit a `PROC` must carry for the kind (R155). -/
def EffectKind.cap : EffectKind → BitVec 1
  | .distortion => 0
  | .delay => 0
  | .reverb => 1
  | .passthroughStereo => 0

/-- The transform of each kind; the reverb kind has none (44_other_effects.md R193, R194, R197). -/
def EffectKind.transform : EffectKind → Option Transform
  | .distortion => some .distortion
  | .delay => some .delay
  | .reverb => none
  | .passthroughStereo => some .passthroughStereo

/-- `W = n * (ch + 1)`, the number of input words of a block (R152, 30_encoding.md R82). -/
def blockWords (ch : BitVec 1) (n : BitVec 24) : Nat := n.toNat * (ch.toNat + 1)

/-- `x[19:0]` of a 24-bit operand, the `info` of `SampleRateMismatch` and `BlockTooLong` (60_exceptions.md R213, R216). -/
def low20 (x : BitVec 24) : BitVec 20 := x.extractLsb' 0 20

/-- `sext_16`: the signed value of an `IN_Q` or `BUF` pattern (00_scope.md R10, 40_arithmetic.md R114). -/
def sext16 (u : Sample) : Int := u.toInt

/-- A result in `[SMIN, SMAX]` as the pattern `v mod 65536` (40_arithmetic.md R114). -/
def toPattern (v : Int) : Sample := BitVec.ofInt 16 v

end Sys2Proof.Machine
end

