-- ==== Sys2Proof/Machine/Arith.lean ====
section
/-! DEFINITION. The fixed-point arithmetic of 40_arithmetic.md, over the unbounded integers (R9, R111): an exact
numerator, the removal of its fraction, the cast to 16 bits. Integer division by a positive number is the floor. -/

namespace Sys2Proof.Machine

/-- `ONE` = 2^15, the gain 1.0 (00_scope.md R7). -/
abbrev one : Int := 32768

/-- The integer nearest to `num / ONE`, ties by the rule `t` (R113). -/
def rne (t : DistTies) (num : Int) : Int :=
  let q := num / one
  let r := num % one
  if r < 16384 then q
  else if 16384 < r then q + 1
  else
    match t with
    | .even => if q % 2 = 0 then q else q + 1
    | .away => if 0 < num then q + 1 else q

/-- `quant`: the fraction of `num / ONE` removed as `CAST_RND` says (R112). -/
def quant (r : CastRnd) (num : Int) : Int :=
  match r with
  | .trunc => if 0 ≤ num then num / one else -((-num) / one)
  | .floor => num / one
  | .nearestEven => rne .even num

/-- `wrap16`: the two's-complement wrap (R115). -/
def wrap16 (y : Int) : Int := (y + 32768) % 65536 - 32768

/-- `sat16`: the clamp (R116). -/
def sat16 (y : Int) : Int := if 32767 < y then 32767 else if y < -32768 then -32768 else y

/-- `cast16`: `wrap16` when `CTRL.SAT` is 0, `sat16` when it is 1 (R117). -/
def cast16 (sat : Bool) (y : Int) : Int := if sat then sat16 y else wrap16 y

/-- A gain register as a non-negative integer (R110, R114). -/
def gain (g : RegWord) : Int := (g.toNat : Int)

/-- The numerator of `blend`: `dry * (ONE - M) + wet * M` (R118). -/
def blendNum (c : ConfigRegs) (dry wet : Int) : Int := dry * (one - gain c.mix) + wet * gain c.mix

/-- The numerator of `update`: `old * F + dry * ONE`, the whole sum before the fraction is removed (R118). -/
def updateNum (c : ConfigRegs) (old dry : Int) : Int := old * gain c.feedback + dry * one

/-- The numerator of `dist`: `s * V` (R118). -/
def distNum (c : ConfigRegs) (s : Int) : Int := s * gain c.volume

/-- `blend(dry, wet)`, the output of the delay line (R118). -/
def blend (p : Params) (c : ConfigRegs) (dry wet : Int) : Int :=
  cast16 c.sat (quant p.castRnd (blendNum c dry wet))

/-- `update(old, dry)`, what the delay line stores (R118). -/
def update (p : Params) (c : ConfigRegs) (old dry : Int) : Int :=
  cast16 c.sat (quant p.castRnd (updateNum c old dry))

/-- `dist(s)` of the spec, the output of the distortion (R118, 44_other_effects.md R190). -/
def distort (p : Params) (c : ConfigRegs) (s : Int) : Int :=
  cast16 c.sat (rne p.distTies (distNum c s))

end Sys2Proof.Machine
end

