-- ==== Sys2Proof/WellFormed.lean ====
section
/-! DEFINITION. Which terms of `Instr` a command word can stand for (30_encoding.md R83, its column "further condition"):
`WRC` has `REG <= 7`, `RDR` has `REG <= 12`. Every other operand takes every value its field admits. -/

namespace Sys2Proof

/-- The further condition of R83 on each command. -/
def Instr.wellFormed : Instr → Bool
  | .nop => true
  | .wrc r _ => decide (r.toNat ≤ 7)
  | .rdr r => decide (r.toNat ≤ 12)
  | .init => true
  | .openStream _ => true
  | .proc _ _ => true
  | .endStream => true
  | .rst => true
  | .reserved7 _ => true
  | .reserved8 _ => true
  | .reserved9 _ => true
  | .reservedA _ => true
  | .reservedB _ => true
  | .reservedC _ => true
  | .reservedD _ => true
  | .reservedE _ => true

end Sys2Proof
end

