-- ==== Sys2Proof/Decode.lean ====
section
/-! DEFINITION. Decoding and encoding of command words (30_encoding.md R80 to R84, R90). The block has no byte order
(20_memory.md R60): the decoder reads one whole 32-bit word. -/

namespace Sys2Proof

/-- `w[31:28]`, the operation code `OPC` (R81). -/
def opcField (w : CmdWord) : BitVec 4 := w.extractLsb' 28 4

/-- `w[27:24]`, the register number `REG` (R81). -/
def regField (w : CmdWord) : RegNum := w.extractLsb' 24 4

/-- `w[23:0]`, the immediate `IMM`, unsigned, used as is (R81, R82). -/
def immField (w : CmdWord) : BitVec 24 := w.extractLsb' 0 24

/-- `w[24]`, the channel bit `CH` of `PROC` (R81). -/
def chField (w : CmdWord) : BitVec 1 := w.extractLsb' 24 1

/-- `w[27:25]`, which must be zero in `PROC` (R81). -/
def procReserved (w : CmdWord) : BitVec 3 := w.extractLsb' 25 3

/-- `w[27:0]`, all that is not the opcode. -/
def lowField (w : CmdWord) : BitVec 28 := w.extractLsb' 0 28

/-- A command whose `REG` and `IMM` must both be zero (R84). -/
def decodeBare (w : CmdWord) (i : Instr) : Except Illegal Instr :=
  if regField w = 0 ∧ immField w = 0 then .ok i else .error .reservedField

/-- `decode` of R84, total on 32-bit words. A reserved opcode decodes to its row's instruction, whose meaning is the
verdict `Illegal(ReservedOpcode)` (notes/assumptions/6.md). -/
def decode (w : CmdWord) : Except Illegal Instr :=
  match (opcField w).toNat with
  | 0 => decodeBare w .nop
  | 1 => if (regField w).toNat ≤ 7 then .ok (.wrc (regField w) (immField w)) else .error .badRegister
  | 2 =>
    if immField w ≠ 0 then .error .reservedField
    else if (regField w).toNat ≤ 12 then .ok (.rdr (regField w)) else .error .badRegister
  | 3 => decodeBare w .init
  | 4 => if regField w = 0 then .ok (.openStream (immField w)) else .error .reservedField
  | 5 => if procReserved w = 0 then .ok (.proc (chField w) (immField w)) else .error .reservedField
  | 6 => decodeBare w .endStream
  | 7 => .ok (.reserved7 (lowField w))
  | 8 => .ok (.reserved8 (lowField w))
  | 9 => .ok (.reserved9 (lowField w))
  | 10 => .ok (.reservedA (lowField w))
  | 11 => .ok (.reservedB (lowField w))
  | 12 => .ok (.reservedC (lowField w))
  | 13 => .ok (.reservedD (lowField w))
  | 14 => .ok (.reservedE (lowField w))
  | _ => decodeBare w .rst

/-- The operation code of each row (R83). -/
def Instr.opcode : Instr → BitVec 4
  | .nop => 0x0
  | .wrc _ _ => 0x1
  | .rdr _ => 0x2
  | .init => 0x3
  | .openStream _ => 0x4
  | .proc _ _ => 0x5
  | .endStream => 0x6
  | .reserved7 _ => 0x7
  | .reserved8 _ => 0x8
  | .reserved9 _ => 0x9
  | .reservedA _ => 0xA
  | .reservedB _ => 0xB
  | .reservedC _ => 0xC
  | .reservedD _ => 0xD
  | .reservedE _ => 0xE
  | .rst => 0xF

/-- The 28 bits below the operation code (R81, and the "Encoding" line of each command's rule). -/
def Instr.lowBits : Instr → BitVec 28
  | .nop => 0
  | .wrc r v => r ++ v
  | .rdr r => r ++ (0 : BitVec 24)
  | .init => 0
  | .openStream rate => (0 : BitVec 4) ++ rate
  | .proc ch n => (0 : BitVec 3) ++ ch ++ n
  | .endStream => 0
  | .rst => 0
  | .reserved7 x => x
  | .reserved8 x => x
  | .reserved9 x => x
  | .reservedA x => x
  | .reservedB x => x
  | .reservedC x => x
  | .reservedD x => x
  | .reservedE x => x

/-- The command word of an instruction: the opcode in the most significant position (R9 `++`, R81, R83). -/
def encode (i : Instr) : CmdWord := i.opcode ++ i.lowBits

/-- The instruction the decoder reads from a table row's word: `w` numbered as the table numbers it, every bit at or
above `nbits` zero. One command is one 32-bit word (R80). -/
def decodeTableWord (nbits w : Nat) : Option Instr :=
  match decode (BitVec.ofNat 32 (w % 2 ^ nbits)) with
  | .ok i => some i
  | .error _ => none

end Sys2Proof
end

