-- ==== Sys2Proof/Machine/Ops.lean ====
section
/-! DEFINITION. The named operations every command is built from: the delay buffer (20_memory.md R60 to R68), the queues
and traces (10_state.md R38, R39), fault entry (60_exceptions.md R222), the two resets (10_state.md R46) and the phase
check of the common step (30_encoding.md R95, R96). -/

namespace Sys2Proof.Machine

/-! ### The delay buffer -/

/-- What an unlisted address reads as: no value. After reset a word is "any value" (10_state.md R46), and the spec allows
a model to represent it so (R49; notes/assumptions/2.md). -/
def Memory.unlisted : Option Sample := none

/-- The canonical form: addresses strictly rising, and no entry equal to what an unlisted address reads as. -/
abbrev Memory.wf (m : Memory) : Prop :=
  m.Pairwise (fun x y => x.1 < y.1) ∧ ∀ e ∈ m, some e.2 ≠ Memory.unlisted

/-- The word at address `a`, if it holds a value. -/
def Memory.read : Memory → Nat → Option Sample
  | [], _ => Memory.unlisted
  | (k, x) :: rest, a => if k = a then some x else Memory.read rest a

/-- Store `v` at address `a`, keeping the addresses rising. -/
def Memory.write : Memory → Nat → Sample → Memory
  | [], a, v => [(a, v)]
  | (k, x) :: rest, a, v =>
    if a < k then (a, v) :: (k, x) :: rest
    else if a = k then (a, v) :: rest
    else (k, x) :: Memory.write rest a v

/-- Write 0 to each address in `[0, n)` (41_config_commands.md R134, R136). -/
def Memory.zeroBelow (m : Memory) (n : Nat) : Memory :=
  (List.range n).map (fun a => (a, (0 : Sample))) ++ m.filter (fun e => decide (n ≤ e.1))

/-- `MemRead(a, 1)` of 00_scope.md R10 on a buffer of `cmax` words. -/
def memRead (cmax : Nat) (m : Memory) (a : Nat) : Except Fault Sample :=
  if cmax ≤ a then .error .bufNoWord
  else
    match m.read a with
    | some v => .ok v
    | none => .error .bufNoValue

/-- `MemWrite(a, 1, v)` of 00_scope.md R10 on a buffer of `cmax` words. -/
def memWrite (cmax : Nat) (m : Memory) (a : Nat) (v : Sample) : Except Fault Memory :=
  if cmax ≤ a then .error .bufNoWord else .ok (m.write a v)

/-! ### Queues and traces -/

/-- `pop(CMD_Q, 1)`: remove the word being executed (R10, 10_state.md R41). -/
def State.popCmd (s : State) : State := { s with cmdQ := s.cmdQ.tail }

/-- `pop(IN_Q, k)`: remove the first `k` sample words (R10). -/
def State.popIn (s : State) (k : Nat) : State := { s with inQ := s.inQ.drop k }

/-- `push(OUT_T, ·)` of a whole output block, in order (42_stream_commands.md R152, R156). -/
def State.pushOut (s : State) (ys : List Sample) : State := { s with outT := s.outT ++ ys }

/-- `push(RSP_T, w)` (41_config_commands.md R133). -/
def State.pushRsp (s : State) (w : CmdWord) : State := { s with rspT := s.rspT ++ [w] }

/-! ### Single registers and the phase -/

/-- `PHASE <- p` (00_scope.md R10). -/
def State.setPhase (s : State) (p : Phase) : State := { s with phase := p }

/-- Replace the configuration registers. -/
def State.setCfg (s : State) (c : ConfigRegs) : State := { s with cfg := c }

/-- `reg[CURSOR] <- v` (10_state.md R32). -/
def State.setCursor (s : State) (v : RegWord) : State := { s with cursor := v }

/-- Replace the delay buffer. -/
def State.setBuf (s : State) (m : Memory) : State := { s with buf := m }

/-! ### Fault entry -/

/-- `fault_entry(K, sub, info, w)` (60_exceptions.md R222): the record is written, the phase becomes FAULT, and nothing
else changes. The word has been removed from `CMD_Q` by the caller. There is no return from it (R225): the exits from
FAULT are the two resets below. -/
def State.raiseFault (s : State) (c : Cause) (info : BitVec 20) (w : CmdWord) : State :=
  { s with faultInfo := info ++ c.sub, faultCmd := w, faultKind := c.kind, phase := .fault }

/-- The `RST` column of 10_state.md R46 (41_config_commands.md R138): registers and phase as after reset, `IN_Q` emptied,
`BUF` not written, `CMD_Q` and the traces kept. -/
def State.softReset (s : State) : State :=
  { State.reset with params := s.params, buf := s.buf, cmdQ := s.cmdQ, outT := s.outT, rspT := s.rspT }

/-- The hardware reset (10_state.md R46, 70_reset_and_hazards.md R240): everything as after reset, `BUF` without values,
the words already emitted kept. -/
def State.hardwareReset (s : State) : State :=
  { State.reset with params := s.params, outT := s.outT, rspT := s.rspT }

/-- A word whose verdict is `Illegal(v)`: `IllegalCommand(v, 0)` in any phase but FAULT, where it is dropped
(30_encoding.md R90, R96; 60_exceptions.md R216, R224). -/
def illegalWord (v : Illegal) (w : CmdWord) (s : State) : Host.Outcome State Fault Refusal :=
  if s.phase = .fault then .next s.popCmd
  else .next (s.popCmd.raiseFault (illegalCause v) 0 w)

/-- The phase check for a command that is legal in phase `q` only (30_encoding.md R95, R96): in FAULT the word is dropped,
in any other phase but `q` it raises `IllegalCommand(WrongPhase, PHASE)`, and in `q` the command executes. -/
def inPhase (q : Phase) (w : CmdWord) (s : State) (body : State → Host.Outcome State Fault Refusal) :
    Host.Outcome State Fault Refusal :=
  if s.phase = .fault then .next s.popCmd
  else if s.phase = q then body s
  else .next (s.popCmd.raiseFault .wrongPhase (s.phase.num.setWidth 20) w)

end Sys2Proof.Machine
end

