-- ==== Sys2Proof/Machine/ConfigCmds.lean ====
section
/-! DEFINITION. The configuration and system commands `NOP`, `WRC`, `RDR`, `INIT`, `RST` (41_config_commands.md). -/

namespace Sys2Proof.Machine

/-- `NOP` (R130): legal in every phase; only its word leaves `CMD_Q`. -/
def execNop (s : State) : Host.Outcome State Fault Refusal := .next s.popCmd

/-- `WRC r, v` (R132): in CONFIG, register `r` of 0 to 7 becomes `v`, with no check of the value. Another register number
is the verdict `Illegal(BadRegister)` (30_encoding.md R84). -/
def execWrc (r : RegNum) (v : RegWord) (s : State) : Host.Outcome State Fault Refusal :=
  if 7 < r.toNat then illegalWord .badRegister (encode (.wrc r v)) s
  else inPhase .config (encode (.wrc r v)) s fun s => .next (s.popCmd.setCfg (s.cfg.write r v))

/-- `RDR r` (R133): in every phase, the register zero-extended is appended to `RSP_T`. A number without a register is the
verdict `Illegal(BadRegister)`. -/
def execRdr (r : RegNum) (s : State) : Host.Outcome State Fault Refusal :=
  match s.readReg r with
  | some w => .next (s.popCmd.pushRsp w)
  | none => illegalWord .badRegister (encode (.rdr r)) s

/-- `validate()` (R135): the first check that fails, in the order of the rule, or none. Checks 1 to 3 are made for every
kind, 4 to 8 for the delay kind. -/
def validate (p : Params) (c : ConfigRegs) : Option Cause :=
  if c.sampleRate = 0 then some .badSampleRate
  else if c.blockSize = 0 then some .badBlockSize
  else if c.ctrlReserved ≠ 0 then some .reservedCtrl
  else if c.kind ≠ .delay then none
  else if c.cap.toNat < c.dlen.toNat then some .delayExceedsHeadroom
  else if c.dlen.toNat < c.blockSize.toNat then some .bufferTooSmallForBlock
  else if p.cmax < c.cap.toNat then some .capacityExceedsStorage
  else if one < gain c.feedback then some .badFeedback
  else if one < gain c.mix then some .badMix
  else none

/-- The number of the offending register, the `info` of a `ConfigError` (R135, 60_exceptions.md R212); no other cause is
raised with it. -/
def configInfo : Cause → BitVec 20
  | .badSampleRate => 1
  | .badBlockSize => 2
  | .delayExceedsHeadroom => 4
  | .bufferTooSmallForBlock => 4
  | .capacityExceedsStorage => 3
  | .badFeedback => 5
  | .badMix => 6
  | _ => 0

/-- What a successful `INIT` leaves in `BUF`: zeros in `[0, CAP)` for the delay kind, no change for another (R134, R136). -/
def initBuf (s : State) : Memory :=
  if s.cfg.kind = .delay then s.buf.zeroBelow s.cfg.cap.toNat else s.buf

/-- `INIT` (R134): in CONFIG, validation, then the buffer, the cursor and phase READY. -/
def execInit (s : State) : Host.Outcome State Fault Refusal :=
  inPhase .config (encode .init) s fun s =>
    match validate s.params s.cfg with
    | some c => .next (s.popCmd.raiseFault c (configInfo c) (encode .init))
    | none => .next (((s.popCmd.setBuf (initBuf s)).setCursor 0).setPhase .ready)

/-- `RST` (R138): in every phase, the `RST` column of 10_state.md R46. -/
def execRst (s : State) : Host.Outcome State Fault Refusal := .next s.popCmd.softReset

end Sys2Proof.Machine
end

