-- ==== Sys2Proof/Machine/Reserved.lean ====
section
/-! DEFINITION. The eight reserved opcodes 0x7 to 0xE (30_encoding.md R90): `IllegalCommand(ReservedOpcode)` in any phase
but FAULT, where the word is dropped (60_exceptions.md R216, R224). -/

namespace Sys2Proof.Machine

/-- Reserved opcode 0x7 (R90). -/
def execReserved7 (x : BitVec 28) (s : State) : Host.Outcome State Fault Refusal :=
  illegalWord .reservedOpcode (encode (.reserved7 x)) s

/-- Reserved opcode 0x8 (R90). -/
def execReserved8 (x : BitVec 28) (s : State) : Host.Outcome State Fault Refusal :=
  illegalWord .reservedOpcode (encode (.reserved8 x)) s

/-- Reserved opcode 0x9 (R90). -/
def execReserved9 (x : BitVec 28) (s : State) : Host.Outcome State Fault Refusal :=
  illegalWord .reservedOpcode (encode (.reserved9 x)) s

/-- Reserved opcode 0xA (R90). -/
def execReservedA (x : BitVec 28) (s : State) : Host.Outcome State Fault Refusal :=
  illegalWord .reservedOpcode (encode (.reservedA x)) s

/-- Reserved opcode 0xB (R90). -/
def execReservedB (x : BitVec 28) (s : State) : Host.Outcome State Fault Refusal :=
  illegalWord .reservedOpcode (encode (.reservedB x)) s

/-- Reserved opcode 0xC (R90). -/
def execReservedC (x : BitVec 28) (s : State) : Host.Outcome State Fault Refusal :=
  illegalWord .reservedOpcode (encode (.reservedC x)) s

/-- Reserved opcode 0xD (R90). -/
def execReservedD (x : BitVec 28) (s : State) : Host.Outcome State Fault Refusal :=
  illegalWord .reservedOpcode (encode (.reservedD x)) s

/-- Reserved opcode 0xE (R90). -/
def execReservedE (x : BitVec 28) (s : State) : Host.Outcome State Fault Refusal :=
  illegalWord .reservedOpcode (encode (.reservedE x)) s

end Sys2Proof.Machine
end

