-- ==== Sys2Proof/Machine/Effects.lean ====
section
/-! DEFINITION. The transforms a `PROC` applies to its block: distortion and passthrough (44_other_effects.md R190, R195)
and the delay line (43_delayline.md R171). The reverb kind has none (R194). -/

namespace Sys2Proof.Machine

/-- One output word of the delay line from the dry and the wet sample (R171 step 2). -/
def blendWord (p : Params) (c : ConfigRegs) (dry wet : Sample) : Sample :=
  toPattern (blend p c (sext16 dry) (sext16 wet))

/-- The word the delay line stores from the old word and the dry sample (R171 step 3). -/
def updateWord (p : Params) (c : ConfigRegs) (old dry : Sample) : Sample :=
  toPattern (update p c (sext16 old) (sext16 dry))

/-- One output word of the distortion (R190). -/
def distWord (p : Params) (c : ConfigRegs) (x : Sample) : Sample := toPattern (distort p c (sext16 x))

/-- The distortion of a block (R190). -/
def distortionBlock (p : Params) (c : ConfigRegs) (x : List Sample) : List Sample := x.map (distWord p c)

/-- The interleaved stereo block both of whose channels equal the mono input (R195). -/
def passthroughBlock (x : List Sample) : List Sample := x.flatMap (fun u => [u, u])

/-- The loop of R171 from sample `i` on, with cursor `cur` and delay length `d`: for each sample the word at
`(cur + i) mod d` is read, the output uses the word read, and only then the word is overwritten (R173). -/
def delayLoop (p : Params) (c : ConfigRegs) (cur d : Nat) :
    Nat → List Sample → Memory → Except Fault (List Sample × Memory)
  | _, [], m => .ok ([], m)
  | i, x :: xs, m =>
    match memRead p.cmax m ((cur + i) % d) with
    | .error f => .error f
    | .ok wet =>
      match memWrite p.cmax m ((cur + i) % d) (updateWord p c wet x) with
      | .error f => .error f
      | .ok m' =>
        match delayLoop p c cur d (i + 1) xs m' with
        | .error f => .error f
        | .ok (ys, m'') => .ok (blendWord p c x wet :: ys, m'')

/-- The cursor after a block of `n` samples: `(p + n) mod D` (R175). -/
def nextCursor (cur : RegWord) (n d : Nat) : RegWord := BitVec.ofNat 24 ((cur.toNat + n) % d)

/-- `delay_block(x)` (R171): the output block, and the state with `BUF` and `CURSOR` written (R176). -/
def delayTransform (x : List Sample) (s : State) : Except Fault (List Sample × State) :=
  if s.cfg.dlen.toNat = 0 then .error .modByZero
  else
    match delayLoop s.params s.cfg s.cursor.toNat s.cfg.dlen.toNat 0 x s.buf with
    | .error f => .error f
    | .ok (y, m) => .ok (y, (s.setBuf m).setCursor (nextCursor s.cursor x.length s.cfg.dlen.toNat))

/-- The transform of a block by effect kind (42_stream_commands.md R152), with what it writes beside the queues (R157). -/
def runTransform (t : Transform) (x : List Sample) (s : State) : Except Fault (List Sample × State) :=
  match t with
  | .distortion => .ok (distortionBlock s.params s.cfg x, s)
  | .delay => delayTransform x s
  | .passthroughStereo => .ok (passthroughBlock x, s)

end Sys2Proof.Machine
end

