-- ==== Sys2Proof/Machine/StreamCmds.lean ====
section
/-! DEFINITION. The stream commands `OPEN`, `PROC`, `END` (42_stream_commands.md). -/

namespace Sys2Proof.Machine

/-- `OPEN rate` (R150): in READY, phase STREAM when the rate is the configured one, else `SampleRateMismatch`. -/
def execOpen (rate : BitVec 24) (s : State) : Host.Outcome State Fault Refusal :=
  inPhase .ready (encode (.openStream rate)) s fun s =>
    if rate = s.cfg.sampleRate then .next (s.popCmd.setPhase .stream)
    else .next (s.popCmd.raiseFault .sampleRateMismatch (low20 rate) (encode (.openStream rate)))

/-- The checks of `PROC` in their order (R152, R153): shape, unimplemented, length. The answer is the fault to raise with
its `info`, or the transform to apply. -/
def procChecks (ch : BitVec 1) (n : BitVec 24) (s : State) : Except (Cause × BitVec 20) Transform :=
  if ch ≠ s.cfg.kind.cap then
    .error (if ch = 1 then .stereoIntoMono else .monoIntoStereo, s.cfg.kind.num)
  else
    match s.cfg.kind.transform with
    | none => .error (.reverb, s.cfg.kind.num)
    | some t => if s.cfg.blockSize.toNat < n.toNat then .error (.blockTooLong, low20 n) else .ok t

/-- `PROC ch, n` (R152): in STREAM, the checks, then the hold until `W` sample words are in `IN_Q` (R156; with too few
the engine has no step and the word stays in `CMD_Q`, 70_reset_and_hazards.md R255), then in one step the input is
popped, transformed and pushed. -/
def execProc (ch : BitVec 1) (n : BitVec 24) (s : State) : Host.Outcome State Fault Refusal :=
  inPhase .stream (encode (.proc ch n)) s fun s =>
    match procChecks ch n s with
    | .error (c, info) => .next (s.popCmd.raiseFault c info (encode (.proc ch n)))
    | .ok t =>
      if s.inQ.length < blockWords ch n then .fault .held
      else
        match runTransform t (s.inQ.take (blockWords ch n)) (s.popCmd.popIn (blockWords ch n)) with
        | .error f => .fault f
        | .ok (y, s') => .next (s'.pushOut y)

/-- `END` (R158): in STREAM, phase DONE; nothing is flushed. -/
def execEnd (s : State) : Host.Outcome State Fault Refusal :=
  inPhase .stream (encode .endStream) s fun s => .next (s.popCmd.setPhase .done)

end Sys2Proof.Machine
end

