-- ==== Sys2Proof/Machine/Dispatch.lean ====
section
/-! DEFINITION. One arm per command: its meaning. -/

namespace Sys2Proof.Machine

def exec (i : Instr) (s : State) : Host.Outcome State Fault Refusal :=
  match i with
  | .nop => Sys2Proof.Machine.execNop s
  | .wrc r v => Sys2Proof.Machine.execWrc r v s
  | .rdr r => Sys2Proof.Machine.execRdr r s
  | .init => Sys2Proof.Machine.execInit s
  | .openStream rate => Sys2Proof.Machine.execOpen rate s
  | .proc ch n => Sys2Proof.Machine.execProc ch n s
  | .endStream => Sys2Proof.Machine.execEnd s
  | .rst => Sys2Proof.Machine.execRst s
  | .reserved7 x => Sys2Proof.Machine.execReserved7 x s
  | .reserved8 x => Sys2Proof.Machine.execReserved8 x s
  | .reserved9 x => Sys2Proof.Machine.execReserved9 x s
  | .reservedA x => Sys2Proof.Machine.execReservedA x s
  | .reservedB x => Sys2Proof.Machine.execReservedB x s
  | .reservedC x => Sys2Proof.Machine.execReservedC x s
  | .reservedD x => Sys2Proof.Machine.execReservedD x s
  | .reservedE x => Sys2Proof.Machine.execReservedE x s

end Sys2Proof.Machine
end

