-- ==== Sys2Proof/Machine/Fetch.lean ====
section
/-! DEFINITION. Where the next command comes from: the head of `CMD_Q` (10_state.md R41, 30_encoding.md R96). -/

namespace Sys2Proof.Machine

/-- The word at the head of `CMD_Q` with its decode verdict, if there is one. -/
def fetch (s : State) : Option (CmdWord × Except Illegal Instr) :=
  match s.cmdQ with
  | [] => none
  | w :: _ => some (w, decode w)

/-- Place a word where `fetch` takes its next one: in front of `CMD_Q` (notes/assumptions/11.md). -/
def placeAtFetch (s : State) (w : CmdWord) : State := { s with cmdQ := w :: s.cmdQ }

end Sys2Proof.Machine
end

