-- ==== Sys2Proof/Machine/Step.lean ====
section
/-! DEFINITION. One step of the engine (30_encoding.md R96). -/

namespace Sys2Proof.Machine

/-- `engine_step` of R96: no step with `CMD_Q` empty; else the head word's command runs, or its verdict is raised. -/
def step (s : State) : Host.Outcome State Fault Refusal :=
  match fetch s with
  | none => .fault .idle
  | some (_, .ok i) => exec i s
  | some (w, .error v) => illegalWord v w s

/-- The instruction of a table row placed at the head of `CMD_Q`, where `step` takes its next command
(notes/assumptions/11.md): the bits at or above `nbits` are zero, and one command is one word. -/
def State.withFetchWord (s : State) (nbits w : Nat) : State := placeAtFetch s (BitVec.ofNat 32 (w % 2 ^ nbits))

end Sys2Proof.Machine
end

