-- ==== Sys2Proof/Machine/HostPort.lean ====
section
/-! DEFINITION. The second agent: what the host can do to the block (00_scope.md R6, 70_reset_and_hazards.md R240, R258),
and an interleaving of the two agents as a list of events (R260). The host is not state of the block (10_state.md R20), so
its actions are given from outside (notes/assumptions/10.md). -/

namespace Sys2Proof.Machine

/-- What the host may do (R6, R258). It cannot touch `BUF`, the registers or the words already appended. -/
inductive HostAction where
  /-- Append a command word to `CMD_Q`. -/
  | appendCmd (w : CmdWord)
  /-- Append a sample word to `IN_Q`. -/
  | appendSample (u : Sample)
  /-- Assert the hardware reset (R240). -/
  | hardwareReset
  deriving DecidableEq, Repr

/-- The effect of a host action. It falls between two engine steps and never splits a command (R240). -/
def hostAct : HostAction → State → State
  | .appendCmd w, s => { s with cmdQ := s.cmdQ ++ [w] }
  | .appendSample u, s => { s with inQ := s.inQ ++ [u] }
  | .hardwareReset, s => s.hardwareReset

/-- One turn of one of the two agents. -/
inductive Event where
  /-- The engine takes its step if it has one. -/
  | engine
  /-- The host acts. -/
  | host (a : HostAction)
  deriving DecidableEq, Repr

/-- The state after one event. An engine that is idle, held or stopped has no step and leaves the state as it is (R255). -/
def sysStep (e : Event) (s : State) : State :=
  match e with
  | .host a => hostAct a s
  | .engine =>
    match step s with
    | .next t => t
    | .fault _ => s
    | .refused _ => s

/-- The state after a schedule of events, first event first. -/
def sysRun : List Event → State → State
  | [], s => s
  | e :: es, s => sysRun es (sysStep e s)

/-- The command words a schedule appends, in order. -/
def appendedCmds : List Event → List CmdWord
  | [] => []
  | .host (.appendCmd w) :: es => w :: appendedCmds es
  | .host (.appendSample _) :: es => appendedCmds es
  | .host .hardwareReset :: es => appendedCmds es
  | .engine :: es => appendedCmds es

/-- The sample words a schedule appends, in order. -/
def appendedSamples : List Event → List Sample
  | [] => []
  | .host (.appendSample u) :: es => u :: appendedSamples es
  | .host (.appendCmd _) :: es => appendedSamples es
  | .host .hardwareReset :: es => appendedSamples es
  | .engine :: es => appendedSamples es

end Sys2Proof.Machine
end

