-- ==== Sys2Proof/Machine/Reference.lean ====
section
/-! DEFINITION. The spec's second descriptions of the delay line, against which the command-by-command machine can be
compared: the two spans of a block (43_delayline.md R172), the recurrence over an unbounded buffer (R178), and a run of
blocks (R179). No instruction's meaning uses them. -/

namespace Sys2Proof.Machine

/-- `n1 = min(n, D - p)`, the length of the first span (R172). -/
def firstSpan (cur d n : Nat) : Nat := min n (d - cur)

/-- The address of sample `i` by spans: `p + i` in the first, `i - n1` in the second (R172). -/
def spanAddr (cur d n i : Nat) : Nat :=
  if i < firstSpan cur d n then cur + i else i - firstSpan cur d n

/-- `w_t = s_{t-D}`, and 0 for a negative index (R178): what the unbounded buffer `hist` of the stored values `s_0`,
`s_1`, … delays to the next sample. -/
def delayedBy (d : Nat) (hist : List Sample) : Sample :=
  if hist.length < d then 0 else hist.getD (hist.length - d) 0

/-- The recurrence of R178 from the stored history `hist` on: the outputs `y_t = blend(x_t, w_t)`, and the history
extended by `s_t = update(w_t, x_t)`. -/
def refRun (p : Params) (c : ConfigRegs) (d : Nat) : List Sample → List Sample → List Sample × List Sample
  | hist, [] => ([], hist)
  | hist, x :: xs =>
    let w := delayedBy d hist
    let r := refRun p c d (hist ++ [updateWord p c w x]) xs
    (blendWord p c x w :: r.1, r.2)

/-- What `BUF[a]` holds in the terms of R178: `s_u` for the greatest `u` below the length of the history with
`u mod D = a`, or 0 if there is none. -/
def lastStored (d a : Nat) (hist : List Sample) : Sample :=
  match (List.range hist.length).reverse.find? (fun u => decide (u % d = a)) with
  | some u => hist.getD u 0
  | none => 0

/-- Mono blocks of the given lengths, one `PROC` each (R179). -/
def procBlocks : List (BitVec 24) → State → Host.Outcome State Fault Refusal
  | [], s => .next s
  | n :: ns, s =>
    match exec (.proc 0 n) s with
    | .next t => procBlocks ns t
    | .fault f => .fault f
    | .refused r => .refused r

/-- The number of samples in blocks of the given lengths. -/
def totalSamples (ns : List (BitVec 24)) : Nat := (ns.map BitVec.toNat).sum

end Sys2Proof.Machine
end

