-- ==== Sys2Proof/Safety.lean ====
section
/-! DEFINITION. What claims call a good state and a good run: the invariants of 10_state.md R31, R32, R34, R35, R47, R49,
and the ends of a run of 70_reset_and_hazards.md R259 and 60_exceptions.md R226. -/

namespace Sys2Proof.Machine

/-- The invariants of a constructed delay line (R47). -/
structure DelayReady (s : State) : Prop where
  blockSizePos : 1 ≤ s.cfg.blockSize.toNat
  blockFits : s.cfg.blockSize.toNat ≤ s.cfg.dlen.toNat
  delayFits : s.cfg.dlen.toNat ≤ s.cfg.cap.toNat
  capFits : s.cfg.cap.toNat ≤ s.params.cmax
  cursorInLine : s.cursor.toNat < s.cfg.dlen.toNat
  feedbackLegal : gain s.cfg.feedback ≤ one
  mixLegal : gain s.cfg.mix ≤ one
  bufDefined : ∀ a < s.cfg.cap.toNat, s.buf.read a ≠ none

/-- The invariant of the machine. -/
structure StateInv (s : State) : Prop where
  /-- The implementation parameters are in range (00_scope.md R7). -/
  paramsOk : s.params.wf
  /-- The buffer keeps its canonical form. -/
  bufWf : s.buf.wf
  /-- The buffer lists only addresses that exist (R37). -/
  bufInRange : ∀ e ∈ s.buf, e.1 < s.params.cmax
  /-- `FAULT_CODE` is non-zero if and only if the phase is FAULT (R31). -/
  faultIff : s.faultKind ≠ .none ↔ s.phase = .fault
  /-- The fault record is zero when no fault is recorded (R34, R35). -/
  noRecord : s.phase ≠ .fault → s.faultInfo = 0 ∧ s.faultCmd = 0
  /-- The cursor is 0 before construction and under every kind but delay (R32, R46). -/
  cursorZero : s.phase = .config ∨ s.cfg.kind ≠ .delay → s.cursor = 0
  /-- After a successful `INIT` the checks for every kind hold (41_config_commands.md R135). -/
  constructed : s.phase = .ready ∨ s.phase = .stream ∨ s.phase = .done →
    s.cfg.sampleRate ≠ 0 ∧ s.cfg.blockSize ≠ 0 ∧ s.cfg.ctrlReserved = 0
  /-- In READY and STREAM a delay line keeps R47. -/
  delayReady : s.phase = .ready ∨ s.phase = .stream → s.cfg.kind = .delay → DelayReady s

/-- The engine is idle: `CMD_Q` is empty, which is no step but no hold (R255). -/
def State.idle (s : State) : Prop := s.cmdQ = []

/-- The engine is held by a `PROC` that waits for samples (R255). -/
def State.held (s : State) : Prop := step s = .fault .held

/-- A run that ended well (R259): idle, DONE, no fault recorded, no sample left over. -/
def State.endedWell (s : State) : Prop :=
  s.idle ∧ s.phase = .done ∧ s.faultKind.code = 0 ∧ s.inQ = []

/-- A run that ended in fault (R259). -/
def State.endedInFault (s : State) : Prop := s.idle ∧ s.phase = .fault

/-- An unfinished run waiting for the host (R259). -/
def State.unfinished (s : State) : Prop :=
  s.idle ∧ (s.phase = .config ∨ s.phase = .ready ∨ s.phase = .stream)

/-- The success condition a claim about a run should take: no fault recorded (R226). -/
def State.noFaultRecorded (s : State) : Prop := s.faultKind.code = 0

end Sys2Proof.Machine
end

