-- ==== Sys2Proof/Certificates/Slice0/Obligations.lean ====
section
/-! DEFINITION. The statements for the provers, from the numbered rules of the spec. A fault entry is written out here as
a record (`faulted`), not by the model's own operation. -/

namespace Sys2Proof.Claims

open Sys2Proof.Machine

/-- The state after a fault entry for the word `w`, written out from 60_exceptions.md R222 and R223: the word has left
`CMD_Q`, the record and the phase are written, and nothing else changes. -/
def faulted (s : State) (w : CmdWord) (kind : FaultKind) (sub : BitVec 4) (info : BitVec 20) : State :=
  { s with
    cmdQ := s.cmdQ.tail
    faultInfo := info ++ sub
    faultCmd := w
    faultKind := kind
    phase := .fault }

/-- A word that has left `CMD_Q` with no other effect (60_exceptions.md R224). -/
def dropped (s : State) : State := { s with cmdQ := s.cmdQ.tail }

/-- What `IllegalCommand(sub)` or its drop in FAULT leaves (30_encoding.md R90). -/
def illegalResult (s : State) (w : CmdWord) (sub : BitVec 4) : State :=
  if s.phase = .fault then dropped s else faulted s w .illegalCommand sub 0

end Sys2Proof.Claims

open Sys2Proof Sys2Proof.Machine Sys2Proof.Claims

/-! ### Encoding -/

/-- Decode and encode agree for every well-formed instruction, with every operand at every value (30_encoding.md R81,
R83, R84). That a reserved opcode decodes to an instruction is the model's choice (notes/assumptions/6.md). -/
def Obligations.DecodeOfEncodeIsTheInstruction : Prop :=
  ∀ i : Instr, i.wellFormed = true → decode (encode i) = .ok i

/-- A word that decodes is the encoding of what it decodes to, which is well-formed: no bit of a word is dropped, and the
word a fault entry records from the instruction is the word that was executed (30_encoding.md R81, R84;
notes/assumptions/5.md, and notes/assumptions/6.md for the reserved opcodes, which decode by the model's choice). -/
def Obligations.EncodeOfDecodeIsTheWord : Prop :=
  ∀ (w : CmdWord) (i : Instr), decode w = .ok i → encode i = w ∧ i.wellFormed = true

/-- The opcode map. The first eight clauses are 30_encoding.md R83: a word is the command if and only if
`w & mask = match` and the register condition holds. The eight clauses on the opcodes 0x7 to 0xE are the model's choice,
not R83's or R84's: that a reserved opcode decodes to its row's instruction, whose meaning is the illegal verdict
(notes/assumptions/6.md). -/
def Obligations.OpcodeMapByMaskAndMatch : Prop :=
  ∀ w : CmdWord,
    (w &&& 0xFFFFFFFF = 0x00000000 ↔ decode w = .ok .nop) ∧
    (w &&& 0xF0000000 = 0x10000000 ∧ (w.extractLsb' 24 4).toNat ≤ 7 ↔ ∃ r v, decode w = .ok (.wrc r v)) ∧
    (w &&& 0xF0FFFFFF = 0x20000000 ∧ (w.extractLsb' 24 4).toNat ≤ 12 ↔ ∃ r, decode w = .ok (.rdr r)) ∧
    (w &&& 0xFFFFFFFF = 0x30000000 ↔ decode w = .ok .init) ∧
    (w &&& 0xFF000000 = 0x40000000 ↔ ∃ rate, decode w = .ok (.openStream rate)) ∧
    (w &&& 0xFE000000 = 0x50000000 ↔ ∃ ch n, decode w = .ok (.proc ch n)) ∧
    (w &&& 0xFFFFFFFF = 0x60000000 ↔ decode w = .ok .endStream) ∧
    (w &&& 0xFFFFFFFF = 0xF0000000 ↔ decode w = .ok .rst) ∧
    (w &&& 0xF0000000 = 0x70000000 ↔ ∃ x, decode w = .ok (.reserved7 x)) ∧
    (w &&& 0xF0000000 = 0x80000000 ↔ ∃ x, decode w = .ok (.reserved8 x)) ∧
    (w &&& 0xF0000000 = 0x90000000 ↔ ∃ x, decode w = .ok (.reserved9 x)) ∧
    (w &&& 0xF0000000 = 0xA0000000 ↔ ∃ x, decode w = .ok (.reservedA x)) ∧
    (w &&& 0xF0000000 = 0xB0000000 ↔ ∃ x, decode w = .ok (.reservedB x)) ∧
    (w &&& 0xF0000000 = 0xC0000000 ↔ ∃ x, decode w = .ok (.reservedC x)) ∧
    (w &&& 0xF0000000 = 0xD0000000 ↔ ∃ x, decode w = .ok (.reservedD x)) ∧
    (w &&& 0xF0000000 = 0xE0000000 ↔ ∃ x, decode w = .ok (.reservedE x))

/-- Which words the decoder rejects, and by which name (30_encoding.md R84, R90): a bad register number in `WRC`, or in an
`RDR` whose immediate is zero; a reserved field for every other word that is no command and no reserved opcode. The last
clause is the model's choice, not the form of R84 and R90 (a): the decoder answers a reserved opcode with its row's
instruction, and the verdict `ReservedOpcode` is that instruction's meaning (notes/assumptions/6.md). -/
def Obligations.DecoderRejectsByName : Prop :=
  ∀ w : CmdWord,
    (decode w = .error .badRegister ↔
      (w &&& 0xF0000000 = 0x10000000 ∧ 7 < (w.extractLsb' 24 4).toNat) ∨
      (w &&& 0xF0FFFFFF = 0x20000000 ∧ 12 < (w.extractLsb' 24 4).toNat)) ∧
    (decode w = .error .reservedField ↔
      (w &&& 0xF0000000 = 0x00000000 ∧ w &&& 0x0FFFFFFF ≠ 0) ∨
      (w &&& 0xF0000000 = 0x20000000 ∧ w &&& 0x00FFFFFF ≠ 0) ∨
      (w &&& 0xF0000000 = 0x30000000 ∧ w &&& 0x0FFFFFFF ≠ 0) ∨
      (w &&& 0xF0000000 = 0x40000000 ∧ w &&& 0x0F000000 ≠ 0) ∨
      (w &&& 0xF0000000 = 0x50000000 ∧ w &&& 0x0E000000 ≠ 0) ∨
      (w &&& 0xF0000000 = 0x60000000 ∧ w &&& 0x0FFFFFFF ≠ 0) ∨
      (w &&& 0xF0000000 = 0xF0000000 ∧ w &&& 0x0FFFFFFF ≠ 0)) ∧
    decode w ≠ .error .reservedOpcode

/-- The encoding examples of 30_encoding.md R85, one per command. -/
def Obligations.EncodingExamplesDecode : Prop :=
  decode 0x00000000 = .ok .nop ∧ decode 0x14000004 = .ok (.wrc 4 4) ∧ decode 0x16008000 = .ok (.wrc 6 0x8000) ∧
  decode 0x28000000 = .ok (.rdr 8) ∧ decode 0x30000000 = .ok .init ∧
  decode 0x4000AC44 = .ok (.openStream 44100) ∧ decode 0x50000100 = .ok (.proc 0 256) ∧
  decode 0x51000100 = .ok (.proc 1 256) ∧ decode 0x60000000 = .ok .endStream ∧ decode 0xF0000000 = .ok .rst

/-! ### The step -/

/-- When the head of `CMD_Q` decodes to an instruction, the step is its meaning, and nothing is added around it: the
meaning itself removes the word (30_encoding.md R96). -/
def Obligations.StepRunsTheDecodedCommand : Prop :=
  ∀ (s : State) (w : CmdWord) (q : List CmdWord) (i : Instr),
    s.cmdQ = w :: q → decode w = .ok i → step s = exec i s

/-- A word whose verdict is illegal raises `IllegalCommand` with its sub-cause, or is dropped in FAULT (30_encoding.md
R90, R96; 60_exceptions.md R216). -/
def Obligations.IllegalWordRaisesOrIsDropped : Prop :=
  ∀ (s : State) (w : CmdWord) (q : List CmdWord), s.cmdQ = w :: q →
    (decode w = .error .reservedField → step s = .next (illegalResult s w 2)) ∧
    (decode w = .error .badRegister → step s = .next (illegalResult s w 3))

/-- Each command that completes, faults or is dropped removes exactly one word from `CMD_Q` (10_state.md R41). -/
def Obligations.EveryStepRemovesOneCommandWord : Prop :=
  ∀ s t : State, step s = .next t → ∃ w, s.cmdQ = w :: t.cmdQ

/-- In a state that meets the invariant the engine has a step exactly when `CMD_Q` is not empty and its head is not a
`PROC` that waits for samples: in STREAM, mono, its kind not reverb, no longer than a block, with fewer than `n` words in
`IN_Q` (30_encoding.md R96; 70_reset_and_hazards.md R255). -/
def Obligations.EngineHasAStepUnlessIdleOrHeld : Prop :=
  ∀ s : State, StateInv s →
    ((∃ t, step s = .next t) ↔
      s.cmdQ ≠ [] ∧
        ¬ ∃ n q, s.cmdQ = encode (.proc 0 n) :: q ∧ s.phase = .stream ∧ s.cfg.kind ≠ .reverb ∧
          n.toNat ≤ s.cfg.blockSize.toNat ∧ s.inQ.length < n.toNat)

/-! ### Phase legality -/

/-- The `ill` entries of 30_encoding.md R95: a well-formed command in a phase where it is not legal, other than FAULT,
raises `IllegalCommand(WrongPhase)` with the phase number as `info`. -/
def Obligations.MisplacedCommandRaisesWrongPhase : Prop :=
  ∀ s : State, s.phase ≠ .fault →
    (s.phase ≠ .config → ∀ (r : RegNum) (v : RegWord), r.toNat ≤ 7 →
      exec (.wrc r v) s = .next (faulted s (encode (.wrc r v)) .illegalCommand 4 (s.phase.num.setWidth 20))) ∧
    (s.phase ≠ .config →
      exec .init s = .next (faulted s 0x30000000 .illegalCommand 4 (s.phase.num.setWidth 20))) ∧
    (s.phase ≠ .ready → ∀ rate : BitVec 24,
      exec (.openStream rate) s =
        .next (faulted s (encode (.openStream rate)) .illegalCommand 4 (s.phase.num.setWidth 20))) ∧
    (s.phase ≠ .stream → ∀ (ch : BitVec 1) (n : BitVec 24),
      exec (.proc ch n) s = .next (faulted s (encode (.proc ch n)) .illegalCommand 4 (s.phase.num.setWidth 20))) ∧
    (s.phase ≠ .stream →
      exec .endStream s = .next (faulted s 0x60000000 .illegalCommand 4 (s.phase.num.setWidth 20)))

/-- In FAULT every instruction but a well-formed `RDR` and `RST` (and `NOP`, which does no more) only leaves `CMD_Q`
(60_exceptions.md R224). -/
def Obligations.FaultPhaseDropsOtherCommands : Prop :=
  ∀ (s : State) (i : Instr), s.phase = .fault → i ≠ .rst → (∀ r, i = .rdr r → 12 < r.toNat) →
    exec i s = .next (dropped s)

/-- In FAULT, until an `RST` word is at the head, a step keeps the phase, the whole fault record, the configuration, the
cursor, the buffer, the queued samples and the output (60_exceptions.md R224, R225). -/
def Obligations.FaultRecordIsKeptUntilRst : Prop :=
  ∀ s t : State, s.phase = .fault → step s = .next t → s.cmdQ.head? ≠ some 0xF0000000 →
    t.phase = .fault ∧ t.faultKind = s.faultKind ∧ t.faultInfo = s.faultInfo ∧ t.faultCmd = s.faultCmd ∧
    t.cfg = s.cfg ∧ t.cursor = s.cursor ∧ t.buf = s.buf ∧ t.inQ = s.inQ ∧ t.outT = s.outT

/-- The phase graph: a step keeps the phase, or takes an arrow of 30_encoding.md R95, each for its own command word, or
enters FAULT, or is an `RST`. -/
def Obligations.PhaseChangesOnlyAlongTheGraph : Prop :=
  ∀ s t : State, step s = .next t →
    t.phase = s.phase ∨
    (s.phase ≠ .fault ∧ t.phase = .fault) ∨
    (s.phase = .config ∧ t.phase = .ready ∧ s.cmdQ.head? = some 0x30000000) ∨
    (s.phase = .ready ∧ t.phase = .stream ∧ s.cmdQ.head? = some (encode (.openStream s.cfg.sampleRate))) ∨
    (s.phase = .stream ∧ t.phase = .done ∧ s.cmdQ.head? = some 0x60000000) ∨
    (t.phase = .config ∧ s.cmdQ.head? = some 0xF0000000)

/-! ### Configuration and system commands -/

/-- `NOP` in every phase changes nothing but `CMD_Q`; its word is zero, and any other word with opcode 0 is illegal
(41_config_commands.md R130). -/
def Obligations.NopOnlyLeavesTheQueue : Prop :=
  (∀ s : State, exec .nop s = .next (dropped s)) ∧ encode .nop = 0x00000000 ∧
  ∀ w : CmdWord, w.extractLsb' 28 4 = 0 → w ≠ 0 → decode w = .error .reservedField

/-- `WRC r, v` in CONFIG completes and writes exactly register `r`: reading `r` answers `v`, reading any other number
answers as before, and nothing outside the configuration registers and `CMD_Q` changes (41_config_commands.md R132). -/
def Obligations.WrcWritesExactlyItsRegister : Prop :=
  ∀ (s : State) (r : RegNum) (v : RegWord), s.phase = .config → r.toNat ≤ 7 →
    ∃ c : ConfigRegs,
      exec (.wrc r v) s = .next { s with cfg := c, cmdQ := s.cmdQ.tail } ∧
      State.readReg { s with cfg := c, cmdQ := s.cmdQ.tail } r = some (v.setWidth 32) ∧
      ∀ r' : RegNum, r' ≠ r → State.readReg { s with cfg := c, cmdQ := s.cmdQ.tail } r' = s.readReg r'

/-- `RDR r` in every phase appends the register, zero-extended, to `RSP_T` and changes nothing else
(41_config_commands.md R133, 10_state.md R21). -/
def Obligations.RdrAppendsTheRegister : Prop :=
  ∀ s : State,
    (∀ r : RegNum, r.toNat ≤ 12 → ∃ w, s.readReg r = some w ∧
      exec (.rdr r) s = .next { s with cmdQ := s.cmdQ.tail, rspT := s.rspT ++ [w] }) ∧
    s.readReg 0 = some (s.cfg.ctrl.setWidth 32) ∧ s.readReg 1 = some (s.cfg.sampleRate.setWidth 32) ∧
    s.readReg 2 = some (s.cfg.blockSize.setWidth 32) ∧ s.readReg 3 = some (s.cfg.cap.setWidth 32) ∧
    s.readReg 4 = some (s.cfg.dlen.setWidth 32) ∧ s.readReg 5 = some (s.cfg.feedback.setWidth 32) ∧
    s.readReg 6 = some (s.cfg.mix.setWidth 32) ∧ s.readReg 7 = some (s.cfg.volume.setWidth 32) ∧
    s.readReg 8 = some (s.status.setWidth 32) ∧ s.readReg 9 = some (s.cursor.setWidth 32) ∧
    s.readReg 10 = some (s.faultInfo.setWidth 32) ∧ s.readReg 11 = some s.faultCmd ∧
    s.readReg 12 = some 0x01444C46

/-- The reserved and read-only register numbers (10_state.md R21): `WRC` naming 8 to 15 and `RDR` naming 13 to 15 raise
`IllegalCommand(BadRegister)`, or are dropped in FAULT, and write nothing. -/
def Obligations.BadRegisterNumbersRaise : Prop :=
  ∀ (s : State) (r : RegNum) (v : RegWord),
    (7 < r.toNat → exec (.wrc r v) s = .next (illegalResult s (encode (.wrc r v)) 3)) ∧
    (12 < r.toNat → exec (.rdr r) s = .next (illegalResult s (encode (.rdr r)) 3))

/-- The fields of `CTRL` (10_state.md R22). -/
def Obligations.CtrlFields : Prop :=
  ∀ c : ConfigRegs,
    (c.kind = .distortion ↔ c.ctrl.toNat % 4 = 0) ∧ (c.kind = .delay ↔ c.ctrl.toNat % 4 = 1) ∧
    (c.kind = .reverb ↔ c.ctrl.toNat % 4 = 2) ∧ (c.kind = .passthroughStereo ↔ c.ctrl.toNat % 4 = 3) ∧
    (c.sat = true ↔ c.ctrl.toNat / 4 % 2 = 1) ∧ c.ctrlReserved.toNat = c.ctrl.toNat / 8

/-- `STATUS` (10_state.md R31): its bits, that a `WRC` naming its number raises `IllegalCommand(BadRegister)` or is
dropped in FAULT (10_state.md R21, 60_exceptions.md R216, notes/assumptions/6.md), and that the fault code is non-zero
exactly in FAULT in a state that meets the invariant. -/
def Obligations.StatusRegisterLayout : Prop :=
  ∀ s : State,
    s.status.extractLsb' 0 3 = s.phase.num ∧ s.status.extractLsb' 3 1 = 0 ∧
    s.status.extractLsb' 4 4 = s.faultKind.code ∧ s.status.extractLsb' 8 16 = 0 ∧
    (∀ v, exec (.wrc 8 v) s = .next (illegalResult s (0x18#8 ++ v) 3)) ∧
    (StateInv s → (s.faultKind.code ≠ 0 ↔ s.phase = .fault))

/-- `ID` (10_state.md R33): a read answers the constant in every phase, and its two fields are the interface version and
the letters. A `WRC` naming its number raises `IllegalCommand(BadRegister)`, or is dropped in FAULT (10_state.md R21,
60_exceptions.md R216), with the effect the model gives the ill-formed term (notes/assumptions/6.md). -/
def Obligations.IdRegisterIsConstant : Prop :=
  ∀ (s : State) (v : RegWord),
    exec (.rdr 12) s = .next { s with cmdQ := s.cmdQ.tail, rspT := s.rspT ++ [0x01444C46] } ∧
    (0x01444C46 : CmdWord).extractLsb' 24 8 = 0x01 ∧ (0x01444C46 : CmdWord).extractLsb' 0 24 = 0x444C46 ∧
    exec (.wrc 12 v) s = .next (illegalResult s (0x1C#8 ++ v) 3)

/-- `INIT` of a delay line whose eight checks pass completes: zeros in `[0, CAP)`, every other word as it was, cursor 0,
READY, and nothing else changed (41_config_commands.md R134, R136). -/
def Obligations.InitConstructsTheDelayLine : Prop :=
  ∀ s : State, s.phase = .config → s.cfg.kind = .delay →
    s.cfg.sampleRate ≠ 0 → s.cfg.blockSize ≠ 0 → s.cfg.ctrl.toNat / 8 = 0 →
    s.cfg.dlen.toNat ≤ s.cfg.cap.toNat → s.cfg.blockSize.toNat ≤ s.cfg.dlen.toNat →
    s.cfg.cap.toNat ≤ s.params.cmax → s.cfg.feedback.toNat ≤ 32768 → s.cfg.mix.toNat ≤ 32768 →
    ∃ m : Memory,
      exec .init s = .next { s with cmdQ := s.cmdQ.tail, buf := m, cursor := 0, phase := .ready } ∧
      (∀ a, a < s.cfg.cap.toNat → m.read a = some 0) ∧
      (∀ a, s.cfg.cap.toNat ≤ a → m.read a = s.buf.read a)

/-- `INIT` of another kind makes the three common checks only: `DLEN`, `CAP`, `FEEDBACK` and `MIX` may hold anything, and
`BUF` is not touched (41_config_commands.md R135, R136, R137 (d), (f)). -/
def Obligations.InitConstructsTheOtherKinds : Prop :=
  ∀ s : State, s.phase = .config → s.cfg.kind ≠ .delay →
    s.cfg.sampleRate ≠ 0 → s.cfg.blockSize ≠ 0 → s.cfg.ctrl.toNat / 8 = 0 →
    exec .init s = .next { s with cmdQ := s.cmdQ.tail, cursor := 0, phase := .ready }

/-- The eight checks of `INIT` in their order, each with its sub-cause and register number, and the success when none
fails (41_config_commands.md R135). -/
def Obligations.InitReportsTheFirstFailingCheck : Prop :=
  ∀ s : State, s.phase = .config →
    let c := s.cfg
    let raises := fun (sub : BitVec 4) (info : BitVec 20) =>
      exec .init s = .next (faulted s 0x30000000 .configError sub info)
    if c.sampleRate = 0 then raises 1 1
    else if c.blockSize = 0 then raises 2 2
    else if c.ctrl.toNat / 8 ≠ 0 then raises 3 0
    else if c.kind = .delay ∧ c.dlen.toNat > c.cap.toNat then raises 4 4
    else if c.kind = .delay ∧ c.dlen.toNat < c.blockSize.toNat then raises 5 4
    else if c.kind = .delay ∧ c.cap.toNat > s.params.cmax then raises 6 3
    else if c.kind = .delay ∧ c.feedback.toNat > 32768 then raises 7 5
    else if c.kind = .delay ∧ c.mix.toNat > 32768 then raises 8 6
    else ∃ t, exec .init s = .next t ∧ t.phase = .ready

/-- `RST` in every phase takes the `RST` column of 10_state.md R46: registers, phase and `IN_Q` as after reset, the buffer,
the rest of `CMD_Q` and the emitted words kept (41_config_commands.md R138). -/
def Obligations.RstStartsANewRun : Prop :=
  ∀ s : State,
    exec .rst s = .next
      { s with
        cfg := { ctrl := 0, sampleRate := 0, blockSize := 0, cap := 0, dlen := 0, feedback := 0, mix := 0, volume := 0 }
        cursor := 0, faultInfo := 0, faultCmd := 0, phase := .config, faultKind := .none
        cmdQ := s.cmdQ.tail, inQ := [] }

/-- The hardware reset takes the other column of 10_state.md R46 from every state, a held one too
(70_reset_and_hazards.md R240). That no `BUF` word holds a value is the model's choice for "each word any value"
(notes/assumptions/2.md). -/
def Obligations.HardwareResetColumn : Prop :=
  ∀ s : State,
    let t := hostAct .hardwareReset s
    (∀ r : RegNum, r.toNat ≤ 11 → t.readReg r = some 0) ∧ t.readReg 12 = some 0x01444C46 ∧
    t.phase = .config ∧ t.status = 0 ∧ t.faultO = false ∧ t.cmdQ = [] ∧ t.inQ = [] ∧
    t.outT = s.outT ∧ t.rspT = s.rspT ∧ t.params = s.params ∧ (∀ a, t.buf.read a = none) ∧
    step t = .fault .idle

/-- The reserved opcodes 0x7 to 0xE raise `IllegalCommand(ReservedOpcode)` in any phase but FAULT, where they are dropped,
whatever their other bits (30_encoding.md R90). -/
def Obligations.ReservedOpcodesRaise : Prop :=
  ∀ (s : State) (x : BitVec 28),
    exec (.reserved7 x) s = .next (illegalResult s (0x7#4 ++ x) 1) ∧
    exec (.reserved8 x) s = .next (illegalResult s (0x8#4 ++ x) 1) ∧
    exec (.reserved9 x) s = .next (illegalResult s (0x9#4 ++ x) 1) ∧
    exec (.reservedA x) s = .next (illegalResult s (0xA#4 ++ x) 1) ∧
    exec (.reservedB x) s = .next (illegalResult s (0xB#4 ++ x) 1) ∧
    exec (.reservedC x) s = .next (illegalResult s (0xC#4 ++ x) 1) ∧
    exec (.reservedD x) s = .next (illegalResult s (0xD#4 ++ x) 1) ∧
    exec (.reservedE x) s = .next (illegalResult s (0xE#4 ++ x) 1)

/-! ### Stream commands -/

/-- `OPEN` in READY with the configured rate opens the stream and changes nothing but the phase (42_stream_commands.md
R150, R151). -/
def Obligations.OpenWithTheConfiguredRateStartsTheStream : Prop :=
  ∀ (s : State) (rate : BitVec 24), s.phase = .ready → rate = s.cfg.sampleRate →
    exec (.openStream rate) s = .next { s with cmdQ := s.cmdQ.tail, phase := .stream }

/-- `OPEN` in READY with another rate raises `SampleRateMismatch(1, rate[19:0])` (42_stream_commands.md R150,
60_exceptions.md R213). -/
def Obligations.OpenWithAnotherRateFaults : Prop :=
  ∀ (s : State) (rate : BitVec 24), s.phase = .ready → rate ≠ s.cfg.sampleRate →
    exec (.openStream rate) s =
      .next (faulted s (0x40#8 ++ rate) .sampleRateMismatch 1 (BitVec.ofNat 20 rate.toNat))

/-- The checks of `PROC` in STREAM, in their order, before any input is consumed (42_stream_commands.md R153;
60_exceptions.md R214 to R216). -/
def Obligations.ProcChecksShapeThenReverbThenLength : Prop :=
  ∀ (s : State) (n : BitVec 24), s.phase = .stream →
    (s.cfg.kind ≠ .reverb →
      exec (.proc 1 n) s = .next (faulted s (0x51#8 ++ n) .shapeMismatch 1 (BitVec.ofNat 20 (s.cfg.ctrl.toNat % 4)))) ∧
    (s.cfg.kind = .reverb →
      exec (.proc 0 n) s = .next (faulted s (0x50#8 ++ n) .shapeMismatch 2 2) ∧
      exec (.proc 1 n) s = .next (faulted s (0x51#8 ++ n) .unimplemented 1 2)) ∧
    (s.cfg.kind ≠ .reverb → s.cfg.blockSize.toNat < n.toNat →
      exec (.proc 0 n) s = .next (faulted s (0x50#8 ++ n) .illegalCommand 5 (BitVec.ofNat 20 n.toNat)))

/-- `PROC` has no step exactly when its checks pass and `IN_Q` holds fewer words than it asks for
(42_stream_commands.md R156, 70_reset_and_hazards.md R255). That "no step" is the stop `held` is
the model's choice (notes/assumptions/3.md). -/
def Obligations.ProcIsHeldExactlyWhileSamplesAreMissing : Prop :=
  ∀ (s : State) (ch : BitVec 1) (n : BitVec 24),
    exec (.proc ch n) s = .fault .held ↔
      s.phase = .stream ∧ ch = 0 ∧ s.cfg.kind ≠ .reverb ∧ n.toNat ≤ s.cfg.blockSize.toNat ∧ s.inQ.length < n.toNat

/-- `PROC` under the distortion kind maps each of the `n` samples it pops and writes only `IN_Q` and `OUT_T`
(44_other_effects.md R190). -/
def Obligations.ProcDistortionMapsTheBlock : Prop :=
  ∀ (s : State) (n : BitVec 24), s.phase = .stream → s.cfg.kind = .distortion →
    n.toNat ≤ s.cfg.blockSize.toNat → n.toNat ≤ s.inQ.length →
    exec (.proc 0 n) s = .next
      { s with
        cmdQ := s.cmdQ.tail
        inQ := s.inQ.drop n.toNat
        outT := s.outT ++ (s.inQ.take n.toNat).map fun u =>
          BitVec.ofInt 16 (cast16 s.cfg.sat (rne s.params.distTies (u.toInt * s.cfg.volume.toNat))) }

/-- `PROC` under the passthrough kind emits `2n` words, each input sample on both channels of its frame, and writes only
`IN_Q` and `OUT_T`; a stereo block raises `ShapeMismatch(1, 3)` (44_other_effects.md R195). -/
def Obligations.ProcPassthroughDuplicatesTheBlock : Prop :=
  ∀ (s : State) (n : BitVec 24), s.phase = .stream → s.cfg.kind = .passthroughStereo →
    (n.toNat ≤ s.cfg.blockSize.toNat → n.toNat ≤ s.inQ.length →
      ∃ y : List Sample,
        exec (.proc 0 n) s = .next
          { s with cmdQ := s.cmdQ.tail, inQ := s.inQ.drop n.toNat, outT := s.outT ++ y } ∧
        y.length = 2 * n.toNat ∧
        ∀ i < n.toNat, y[2 * i]? = s.inQ[i]? ∧ y[2 * i + 1]? = s.inQ[i]?) ∧
    exec (.proc 1 n) s = .next (faulted s (0x51#8 ++ n) .shapeMismatch 1 3)

/-- `PROC` under the delay kind in block form (43_delayline.md R174, R176): with every word read first, output `i` is the
blend of sample `i` and the old word, the new word is the update of the old word by the sample, every other word of `BUF`
is unchanged, the cursor is `(p + n) mod D`, and nothing else is written. -/
def Obligations.ProcDelayBlockForm : Prop :=
  ∀ (s : State) (n : BitVec 24), s.phase = .stream → s.cfg.kind = .delay → DelayReady s →
    n.toNat ≤ s.cfg.blockSize.toNat → n.toNat ≤ s.inQ.length →
    ∃ (y : List Sample) (m : Memory),
      exec (.proc 0 n) s = .next
        { s with
          cmdQ := s.cmdQ.tail
          inQ := s.inQ.drop n.toNat
          outT := s.outT ++ y
          buf := m
          cursor := BitVec.ofNat 24 ((s.cursor.toNat + n.toNat) % s.cfg.dlen.toNat) } ∧
      y.length = n.toNat ∧
      (∀ i < n.toNat, ∃ x wet,
        s.inQ[i]? = some x ∧ s.buf.read ((s.cursor.toNat + i) % s.cfg.dlen.toNat) = some wet ∧
        y[i]? = some (BitVec.ofInt 16 (cast16 s.cfg.sat (quant s.params.castRnd
          (x.toInt * (32768 - s.cfg.mix.toNat) + wet.toInt * s.cfg.mix.toNat)))) ∧
        m.read ((s.cursor.toNat + i) % s.cfg.dlen.toNat) =
          some (BitVec.ofInt 16 (cast16 s.cfg.sat (quant s.params.castRnd
            (wet.toInt * s.cfg.feedback.toNat + x.toInt * 32768))))) ∧
      (∀ a, (∀ i < n.toNat, a ≠ (s.cursor.toNat + i) % s.cfg.dlen.toNat) → m.read a = s.buf.read a)

/-- A block of no samples is legal for every kind but reverb and changes nothing (42_stream_commands.md R154,
43_delayline.md R177 (a)). -/
def Obligations.EmptyBlockChangesNothing : Prop :=
  ∀ s : State, StateInv s → s.phase = .stream → s.cfg.kind ≠ .reverb → exec (.proc 0 0) s = .next (dropped s)

/-- With `MIX = 0` the delay line answers its input, whatever the buffer holds (43_delayline.md R177 (d), R180 (c)). -/
def Obligations.DryPassthrough : Prop :=
  ∀ (s : State) (n : BitVec 24), s.phase = .stream → s.cfg.kind = .delay → DelayReady s → s.cfg.mix = 0 →
    n.toNat ≤ s.cfg.blockSize.toNat → n.toNat ≤ s.inQ.length →
    ∃ t, exec (.proc 0 n) s = .next t ∧ t.outT = s.outT ++ s.inQ.take n.toNat

/-- `END` in STREAM sets DONE and changes nothing else: nothing is flushed, the samples left in `IN_Q` stay
(42_stream_commands.md R158). -/
def Obligations.EndClosesTheStream : Prop :=
  ∀ s : State, s.phase = .stream → exec .endStream s = .next { s with cmdQ := s.cmdQ.tail, phase := .done }

/-- A `PROC` in STREAM that has a step either produces its whole output block and pops its whole input block, or faults
with neither (44_other_effects.md R197, 60_exceptions.md R223). -/
def Obligations.ProcProducesItsWholeBlockOrFaults : Prop :=
  ∀ (s t : State) (ch : BitVec 1) (n : BitVec 24), s.phase = .stream → exec (.proc ch n) s = .next t →
    (t.phase = .fault ∧ t.outT = s.outT ∧ t.inQ = s.inQ ∧ t.buf = s.buf ∧ t.cursor = s.cursor) ∨
    (t.phase = .stream ∧ ch = 0 ∧ t.inQ = s.inQ.drop n.toNat ∧ n.toNat ≤ s.inQ.length ∧
      t.outT.length = s.outT.length + (if s.cfg.kind = .passthroughStereo then 2 * n.toNat else n.toNat))

/-! ### Rules of the whole machine -/

/-- The engine only appends to `OUT_T` and `RSP_T` and never reads them: the same words are appended whatever they hold
(10_state.md R39). -/
def Obligations.TracesAreAppendOnlyAndNeverRead : Prop :=
  ∀ s t : State, step s = .next t →
    ∃ ys ws, t.outT = s.outT ++ ys ∧ t.rspT = s.rspT ++ ws ∧
      ∀ o r, step { s with outT := o, rspT := r } = .next { t with outT := o ++ ys, rspT := r ++ ws }

/-- Faults are precise: a step into FAULT changes nothing but the record, the phase and `CMD_Q`, and records the word it
executed (60_exceptions.md R222, R223). -/
def Obligations.FaultsArePrecise : Prop :=
  ∀ s t : State, step s = .next t → s.phase ≠ .fault → t.phase = .fault →
    ∃ (w : CmdWord) (kind : FaultKind) (sub : BitVec 4) (info : BitVec 20),
      s.cmdQ.head? = some w ∧ kind ≠ .none ∧ sub ≠ 0 ∧ t = faulted s w kind sub info

/-- The configuration registers are frozen outside CONFIG until a reset, and no step changes the implementation parameters
(10_state.md R48, 00_scope.md R7). -/
def Obligations.ConfigurationIsFrozen : Prop :=
  ∀ s t : State, step s = .next t →
    t.params = s.params ∧ (s.phase ≠ .config → s.cmdQ.head? ≠ some 0xF0000000 → t.cfg = s.cfg)

/-- Which steps change which words of `BUF`: only `INIT` of a delay line in `[0, CAP)`, and only `PROC` under the delay
kind at its `n` addresses `(p + i) mod D` (20_memory.md R62). -/
def Obligations.OnlyInitAndProcWriteTheBuffer : Prop :=
  ∀ (s t : State) (a : Nat), step s = .next t → t.buf.read a ≠ s.buf.read a →
    (s.cmdQ.head? = some 0x30000000 ∧ s.phase = .config ∧ s.cfg.kind = .delay ∧ a < s.cfg.cap.toNat) ∨
    (∃ n : BitVec 24, s.cmdQ.head? = some (0x50#8 ++ n) ∧ s.phase = .stream ∧ s.cfg.kind = .delay ∧
      ∃ i < n.toNat, a = (s.cursor.toNat + i) % s.cfg.dlen.toNat)

/-- A step that is no `RST` does not depend on what stands behind the head of `CMD_Q` or behind the samples it takes from
`IN_Q`: words appended before it are there after it (10_state.md R38). -/
def Obligations.StepIgnoresLaterQueueWords : Prop :=
  ∀ (s t : State) (cs : List CmdWord) (us : List Sample), step s = .next t → s.cmdQ.head? ≠ some 0xF0000000 →
    step { s with cmdQ := s.cmdQ ++ cs, inQ := s.inQ ++ us } =
      .next { t with cmdQ := t.cmdQ ++ cs, inQ := t.inQ ++ us }

/-- Schedules of one run give one result (70_reset_and_hazards.md R260): two interleavings of the engine with the same
appended commands and samples, without a hardware reset and without an `RST` word, that both come to an empty `CMD_Q`,
end in the same state. (`RST` is left out whole, which is stronger than the rule's proviso: notes/assumptions/16.md.) -/
def Obligations.SchedulesOfOneRunAgree : Prop :=
  ∀ (s : State) (σ τ : List Event),
    appendedCmds σ = appendedCmds τ → appendedSamples σ = appendedSamples τ →
    Event.host .hardwareReset ∉ σ → Event.host .hardwareReset ∉ τ →
    (0xF0000000 : CmdWord) ∉ s.cmdQ → (0xF0000000 : CmdWord) ∉ appendedCmds σ →
    (sysRun σ s).cmdQ = [] → (sysRun τ s).cmdQ = [] →
    sysRun σ s = sysRun τ s

/-! ### Invariants -/

/-- The invariant holds at reset (10_state.md R46), with the parameters and the buffer of the model's choice
(notes/assumptions/1.md, notes/assumptions/2.md). -/
def Obligations.InvHoldsAtReset : Prop := StateInv State.reset

/-- Every step keeps the invariant: R47 once a delay line is constructed, a fault code exactly in FAULT, a canonical
buffer inside `[0, CMAX)` whose words in `[0, CAP)` hold values (10_state.md R31, R32, R34, R35, R37, R47;
notes/assumptions/2.md). -/
def Obligations.StepKeepsInv : Prop := ∀ s t : State, StateInv s → step s = .next t → StateInv t

/-- What the host does between steps keeps the invariant too (70_reset_and_hazards.md R258). -/
def Obligations.HostActionsKeepInv : Prop := ∀ (s : State) (a : HostAction), StateInv s → StateInv (hostAct a s)

/-- In a state that meets the invariant a step stops only because the engine is idle or held: no command reads a `BUF`
word without a value, no address outside `BUF` is formed, no modulus is 0 (10_state.md R49, 20_memory.md R65). The
stops are the model's (notes/assumptions/2.md, notes/assumptions/3.md, notes/assumptions/12.md). -/
def Obligations.InvRulesOutEveryOtherStop : Prop :=
  ∀ s : State, StateInv s →
    (∀ f, step s = .fault f → f = .idle ∨ f = .held) ∧ ∀ r, step s ≠ .refused r

/-! ### Arithmetic -/

/-- `wrap16` (40_arithmetic.md R115): the formula, that it is the unique integer of the range congruent to `y`, that it is
the low 16 bits read as signed, and the rule's examples. -/
def Obligations.Wrap16IsTheTwosComplementWrap : Prop :=
  (∀ y : Int,
    wrap16 y = (y + 32768) % 65536 - 32768 ∧
    (-32768 ≤ wrap16 y ∧ wrap16 y ≤ 32767 ∧ (wrap16 y - y) % 65536 = 0) ∧
    (∀ z : Int, -32768 ≤ z → z ≤ 32767 → (z - y) % 65536 = 0 → z = wrap16 y) ∧
    wrap16 y = (BitVec.ofInt 16 y).toInt) ∧
  wrap16 32767 = 32767 ∧ wrap16 32768 = -32768 ∧ wrap16 40000 = -25536 ∧ wrap16 65536 = 0 ∧ wrap16 98303 = 32767 ∧
  wrap16 (-32768) = -32768 ∧ wrap16 (-32769) = 32767 ∧ wrap16 (-40000) = 25536

/-- `cast16` follows `CTRL.SAT`, clamps or wraps, and leaves a value of the sample range alone (40_arithmetic.md R116,
R117). -/
def Obligations.CastFollowsTheSatBit : Prop :=
  ∀ (c : ConfigRegs) (y : Int),
    (c.ctrl.toNat / 4 % 2 = 0 → cast16 c.sat y = wrap16 y) ∧
    (c.ctrl.toNat / 4 % 2 = 1 →
      (32767 < y → cast16 c.sat y = 32767) ∧ (y < -32768 → cast16 c.sat y = -32768)) ∧
    (-32768 ≤ y → y ≤ 32767 → cast16 c.sat y = y)

/-- `quant` (40_arithmetic.md R112): toward zero for `trunc`, down for `floor`, `rne` with ties to even for
`nearest_even`, an exact value unchanged for every setting, the default, and the rule's examples. -/
def Obligations.QuantRemovesTheFraction : Prop :=
  (∀ num : Int, 0 ≤ num →
    0 ≤ quant .trunc num * 32768 ∧ quant .trunc num * 32768 ≤ num ∧ num < (quant .trunc num + 1) * 32768 ∧
    quant .trunc (-num) = -quant .trunc num) ∧
  (∀ num : Int, quant .floor num * 32768 ≤ num ∧ num < (quant .floor num + 1) * 32768) ∧
  (∀ num : Int, quant .nearestEven num = rne .even num) ∧
  (∀ (r : CastRnd) (k : Int), quant r (k * 32768) = k) ∧
  State.reset.params.castRnd = .trunc ∧
  quant .trunc 32767 = 0 ∧ quant .trunc 32768 = 1 ∧ quant .trunc (-1) = 0 ∧ quant .trunc (-32768) = -1 ∧
  quant .trunc (-32769) = -1 ∧ quant .trunc (-65535) = -1 ∧ quant .floor (-1) = -1 ∧ quant .floor (-32769) = -2

/-- `rne` (40_arithmetic.md R113): the nearest integer, at a tie the even one, or the one farther from zero, the rule's
computation, the default, and its examples. -/
def Obligations.RneIsTheNearestInteger : Prop :=
  (∀ (t : DistTies) (num : Int),
    2 * |rne t num * 32768 - num| ≤ 32768 ∧
    (∀ z : Int, |rne t num * 32768 - num| ≤ |z * 32768 - num|) ∧
    (num % 32768 = 16384 → rne .even num % 2 = 0 ∧ |num| < |rne .away num * 32768|) ∧
    (num % 32768 < 16384 → rne t num = num / 32768) ∧ (16384 < num % 32768 → rne t num = num / 32768 + 1) ∧
    (num % 32768 = 16384 →
      rne .even num = num / 32768 + num / 32768 % 2 ∧ (0 < num → rne .away num = num / 32768 + 1) ∧
      (num < 0 → rne .away num = num / 32768))) ∧
  State.reset.params.distTies = .even ∧
  rne .even 16384 = 0 ∧ rne .even 49152 = 2 ∧ rne .even 81920 = 2 ∧ rne .even (-16384) = 0 ∧
  rne .even (-49152) = -2 ∧ rne .even 16385 = 1 ∧ rne .even 16383 = 0 ∧ rne .away 16384 = 1 ∧
  rne .away (-16384) = -1 ∧ rne .away 81920 = 3

/-- The laws of 40_arithmetic.md R120, for every setting of the rounding parameters and of `CTRL.SAT`. -/
def Obligations.ArithmeticLaws : Prop :=
  ∀ (p : Params) (c : ConfigRegs) (a b : Int),
    -32768 ≤ a → a ≤ 32767 → -32768 ≤ b → b ≤ 32767 →
    (c.mix = 0 → blend p c a b = a) ∧
    (c.mix = 32768 → blend p c a b = b) ∧
    (c.feedback = 0 → update p c a b = b) ∧
    (c.volume = 32768 → distort p c a = a) ∧
    (c.volume = 0 → distort p c a = 0) ∧
    (c.feedback = 32768 → update p c a b = cast16 c.sat (a + b))

/-- `blend` never overflows for a legal `MIX`: it lies between its two inputs whatever the rounding, so `CTRL.SAT` has no
effect on it (40_arithmetic.md R121). -/
def Obligations.BlendNeverOverflows : Prop :=
  ∀ (p : Params) (c : ConfigRegs) (dry wet : Int),
    c.mix.toNat ≤ 32768 → -32768 ≤ dry → dry ≤ 32767 → -32768 ≤ wet → wet ≤ 32767 →
    min dry wet ≤ blend p c dry wet ∧ blend p c dry wet ≤ max dry wet ∧
    blend p c dry wet = quant p.castRnd (blendNum c dry wet)

/-- The intermediate widths of 40_arithmetic.md R119, with the one end of the range that is reached. -/
def Obligations.AccumulatorWidths : Prop :=
  ∀ (c : ConfigRegs) (a b : Int),
    -32768 ≤ a → a ≤ 32767 → -32768 ≤ b → b ≤ 32767 →
    (c.mix.toNat ≤ 32768 → |blendNum c a b| ≤ 2 ^ 30) ∧
    (c.feedback.toNat ≤ 32768 → -2 ^ 31 ≤ updateNum c a b ∧ updateNum c a b < 2 ^ 31) ∧
    (c.feedback.toNat = 32768 → a = -32768 → b = -32768 → updateNum c a b = -2 ^ 31) ∧
    |distNum c a| ≤ 32768 * (2 ^ 24 - 1) ∧ |distNum c a| < 2 ^ 39

/-! ### The delay line as a stream -/

/-- Addresses and spans (43_delayline.md R172): the address by spans is `(p + i) mod D`, all in `[0, D)`, distinct within
a block; the spans' lengths sum to `n`, and the second is empty exactly when `p + n <= D`. -/
def Obligations.TwoSpansGiveTheModuloAddresses : Prop :=
  ∀ cur d n : Nat, cur < d → n ≤ d →
    (∀ i < n, spanAddr cur d n i = (cur + i) % d ∧ spanAddr cur d n i < d) ∧
    (∀ i < n, ∀ j < n, spanAddr cur d n i = spanAddr cur d n j → i = j) ∧
    firstSpan cur d n + (n - firstSpan cur d n) = n ∧
    (n - firstSpan cur d n = 0 ↔ cur + n ≤ d)

/-- The reference recurrence (43_delayline.md R178, R175): from a constructed delay line with zeros and cursor 0, any
blocks of at most `BLOCK_SIZE` samples give exactly the outputs of the recurrence over an unbounded buffer, leave in
`BUF[a]` the last stored value of that address, and leave the cursor at `T mod D`. -/
def Obligations.DelayLineIsTheUnboundedRecurrence : Prop :=
  ∀ (s : State) (ns : List (BitVec 24)), s.phase = .stream → s.cfg.kind = .delay → DelayReady s → s.cursor = 0 →
    (∀ a < s.cfg.dlen.toNat, s.buf.read a = some 0) →
    (∀ n ∈ ns, n.toNat ≤ s.cfg.blockSize.toNat) → totalSamples ns ≤ s.inQ.length →
    let d := s.cfg.dlen.toNat
    let ref := refRun s.params s.cfg d [] (s.inQ.take (totalSamples ns))
    ∃ t, procBlocks ns s = .next t ∧ t.outT = s.outT ++ ref.1 ∧
      (∀ a < d, t.buf.read a = some (lastStored d a ref.2)) ∧
      t.cursor.toNat = totalSamples ns % d ∧ t.inQ = s.inQ.drop (totalSamples ns)

/-- Independence from the block cut (43_delayline.md R179): from any state of a constructed delay line, two ways of
cutting the same number of samples into legal blocks both complete, with the same output, buffer, cursor and rest of
`IN_Q`. -/
def Obligations.BlockCutDoesNotMatter : Prop :=
  ∀ (s : State) (ns ms : List (BitVec 24)), s.phase = .stream → s.cfg.kind = .delay → DelayReady s →
    (∀ n ∈ ns, n.toNat ≤ s.cfg.blockSize.toNat) → (∀ m ∈ ms, m.toNat ≤ s.cfg.blockSize.toNat) →
    totalSamples ns = totalSamples ms → totalSamples ns ≤ s.inQ.length →
    ∃ t u, procBlocks ns s = .next t ∧ procBlocks ms s = .next u ∧
      t.outT = u.outT ∧ t.buf = u.buf ∧ t.cursor = u.cursor ∧ t.inQ = u.inQ

/-- A pure delay (43_delayline.md R177 (e), R180 (a)): with `MIX` = 1.0 and `FEEDBACK` = 0, from zeros and cursor 0, the
output is the input `D` samples later, and 0 for the first `D` samples; an impulse comes back once, unscaled. -/
def Obligations.PureDelayReproducesTheInput : Prop :=
  ∀ (s : State) (ns : List (BitVec 24)), s.phase = .stream → s.cfg.kind = .delay → DelayReady s → s.cursor = 0 →
    s.cfg.mix = 32768 → s.cfg.feedback = 0 →
    (∀ a < s.cfg.dlen.toNat, s.buf.read a = some 0) →
    (∀ n ∈ ns, n.toNat ≤ s.cfg.blockSize.toNat) → totalSamples ns ≤ s.inQ.length →
    ∃ t, procBlocks ns s = .next t ∧
      ∀ k < totalSamples ns, t.outT[s.outT.length + k]? =
        if k < s.cfg.dlen.toNat then some 0 else s.inQ[k - s.cfg.dlen.toNat]?

/-- Decaying echoes (43_delayline.md R180 (b), 90_conflicts.md C3): with `MIX` = 1.0 and input `A` followed by zeros, from
zeros and cursor 0, output `j * D` for `j >= 1` is `e_j`, with `e_1 = A` and `e_{j+1} = cast16(quant(e_j * F))`, and every
other output is 0. -/
def Obligations.EchoesDecayByTheFeedback : Prop :=
  ∀ (s : State) (ns : List (BitVec 24)) (A : Sample) (e : Nat → Int),
    s.phase = .stream → s.cfg.kind = .delay → DelayReady s → s.cursor = 0 → s.cfg.mix = 32768 →
    (∀ a < s.cfg.dlen.toNat, s.buf.read a = some 0) →
    (∀ n ∈ ns, n.toNat ≤ s.cfg.blockSize.toNat) → totalSamples ns ≤ s.inQ.length →
    s.inQ[0]? = some A → (∀ k, 0 < k → k < totalSamples ns → s.inQ[k]? = some 0) →
    e 1 = A.toInt →
    (∀ j, 1 ≤ j → e (j + 1) = cast16 s.cfg.sat (quant s.params.castRnd (e j * s.cfg.feedback.toNat))) →
    ∃ t, procBlocks ns s = .next t ∧
      ∀ k < totalSamples ns, t.outT[s.outT.length + k]? =
        some (if k % s.cfg.dlen.toNat = 0 ∧ 1 ≤ k / s.cfg.dlen.toNat then BitVec.ofInt 16 (e (k / s.cfg.dlen.toNat))
          else 0)
end

