-- ==== Sys2Proof/Laws/Arith.lean ====
section
/-! SUPPORT. The range of the casts and the two port crossings of a sample. -/

namespace Sys2Proof.Machine

theorem wrap16_range (y : Int) : -32768 ≤ wrap16 y ∧ wrap16 y ≤ 32767 := by
  unfold wrap16
  omega

theorem sat16_range (y : Int) : -32768 ≤ sat16 y ∧ sat16 y ≤ 32767 := by
  unfold sat16
  omega

/-- A cast always answers a sample value. -/
theorem cast16_range (sat : Bool) (y : Int) : -32768 ≤ cast16 sat y ∧ cast16 sat y ≤ 32767 := by
  unfold cast16
  split
  · exact sat16_range y
  · exact wrap16_range y

/-- A cast leaves a sample value as it is, in both modes (40_arithmetic.md R117). -/
theorem cast16_of_range (sat : Bool) {y : Int} (h₁ : -32768 ≤ y) (h₂ : y ≤ 32767) : cast16 sat y = y := by
  unfold cast16 sat16 wrap16
  split <;> omega

theorem sext16_range (u : Sample) : -32768 ≤ sext16 u ∧ sext16 u ≤ 32767 := by
  have h₁ := BitVec.le_toInt u
  have h₂ := BitVec.toInt_lt (x := u)
  unfold sext16
  omega

/-- A sample value crosses the output port and back unchanged (40_arithmetic.md R114). -/
theorem sext16_toPattern {v : Int} (h₁ : -32768 ≤ v) (h₂ : v ≤ 32767) : sext16 (toPattern v) = v := by
  rw [sext16, toPattern, BitVec.toInt_ofInt]
  exact Int.bmod_eq_of_le_mul_two (by norm_num; omega) (by norm_num; omega)

@[simp] theorem toPattern_sext16 (u : Sample) : toPattern (sext16 u) = u := by
  simp [toPattern, sext16]

theorem rne_mul_one (t : DistTies) (k : Int) : rne t (k * one) = k := by
  simp only [rne, one]
  rw [if_pos (by omega)]
  omega

/-- Fraction removal leaves an exact value unchanged (R112). -/
theorem quant_mul_one (r : CastRnd) (k : Int) : quant r (k * one) = k := by
  cases r with
  | trunc =>
    simp only [quant, one]
    split <;> omega
  | floor =>
    simp only [quant, one]
    omega
  | nearestEven => exact rne_mul_one .even k

theorem gain_nonneg (g : RegWord) : 0 ≤ gain g := by
  unfold gain
  omega

theorem gain_lt (g : RegWord) : gain g < 16777216 := by
  have := g.isLt
  unfold gain
  omega

end Sys2Proof.Machine
end

