-- ==== Sys2Proof/Laws/Decode.lean ====
section
/-! SUPPORT. The fields of an encoded word, and a word from its fields (30_encoding.md R81). -/

namespace Sys2Proof

theorem opcField_append (o : BitVec 4) (l : BitVec 28) : opcField (o ++ l) = o := by
  apply BitVec.eq_of_getLsbD_eq
  intro i hi
  simp only [opcField, BitVec.getLsbD_extractLsb', BitVec.getLsbD_append]
  have h : ¬ 28 + i < 28 := by omega
  simp [hi]

theorem lowField_append (o : BitVec 4) (l : BitVec 28) : lowField (o ++ l) = l := by
  apply BitVec.eq_of_getLsbD_eq
  intro i hi
  simp only [lowField, BitVec.getLsbD_extractLsb', BitVec.getLsbD_append]
  simp [hi]

/-- A word is its opcode and the rest (R81). -/
theorem opc_append_low (w : CmdWord) : opcField w ++ lowField w = w := by
  apply BitVec.eq_of_getLsbD_eq
  intro i hi
  simp only [opcField, lowField, BitVec.getLsbD_append, BitVec.getLsbD_extractLsb']
  split
  · rename_i h
    simp [h]
  · have h₁ : i - 28 < 4 := by omega
    have h₂ : 28 + (i - 28) = i := by omega
    simp [h₁, h₂]

/-- The rest of a word is its register number and its immediate (R81). -/
theorem reg_append_imm (w : CmdWord) : regField w ++ immField w = lowField w := by
  apply BitVec.eq_of_getLsbD_eq
  intro i hi
  simp only [regField, immField, lowField, BitVec.getLsbD_append, BitVec.getLsbD_extractLsb']
  split
  · rename_i h
    simp [h, hi]
  · have h₁ : i - 24 < 4 := by omega
    have h₂ : 24 + (i - 24) = i := by omega
    simp [h₁, h₂, hi]

/-- The register number of a `PROC` word is its reserved bits and its channel bit (R81). -/
theorem reserved_append_ch (w : CmdWord) : procReserved w ++ chField w = regField w := by
  apply BitVec.eq_of_getLsbD_eq
  intro i hi
  simp only [procReserved, chField, regField, BitVec.getLsbD_append, BitVec.getLsbD_extractLsb']
  split
  · rename_i h
    simp [h, hi]
  · have h₁ : i - 1 < 3 := by omega
    have h₂ : 25 + (i - 1) = 24 + i := by omega
    simp [h₁, h₂, hi]

@[simp] theorem opcField_encode (i : Instr) : opcField (encode i) = i.opcode := opcField_append _ _

@[simp] theorem lowField_encode (i : Instr) : lowField (encode i) = i.lowBits := lowField_append _ _

/-- The register number of a word through its low 28 bits. -/
theorem regField_eq (w : CmdWord) : regField w = (lowField w).extractLsb' 24 4 := by
  apply BitVec.eq_of_getLsbD_eq
  intro i hi
  simp [regField, lowField, hi]

/-- The immediate of a word through its low 28 bits. -/
theorem immField_eq (w : CmdWord) : immField w = (lowField w).extractLsb' 0 24 := by
  apply BitVec.eq_of_getLsbD_eq
  intro i hi
  simp [immField, lowField, hi]

end Sys2Proof
end

