-- ==== Sys2Proof/Laws/Memory.lean ====
section
/-! SUPPORT. The laws of the delay buffer: read after write, and that every memory operation keeps the canonical form. -/

namespace Sys2Proof.Machine

@[simp] theorem Memory.read_nil (a : Nat) : Memory.read [] a = none := rfl

theorem Memory.read_cons (k : Nat) (x : Sample) (m : Memory) (a : Nat) :
    Memory.read ((k, x) :: m) a = if k = a then some x else m.read a := rfl

/-- An address below every listed one holds no value. -/
theorem Memory.read_of_lt (m : Memory) (a : Nat) (h : ∀ e ∈ m, a < e.1) : m.read a = none := by
  induction m with
  | nil => rfl
  | cons e m ih =>
    obtain ⟨k, x⟩ := e
    have hk : a < k := h (k, x) (by simp)
    rw [Memory.read_cons, if_neg (by omega)]
    exact ih fun e he => h e (List.mem_cons_of_mem _ he)

/-- The entry list of a store: the stored pair and old pairs. -/
theorem Memory.mem_write {m : Memory} {a : Nat} {v : Sample} {e : Nat × Sample} (h : e ∈ m.write a v) :
    e = (a, v) ∨ e ∈ m := by
  induction m with
  | nil => simpa [Memory.write] using h
  | cons hd m ih =>
    obtain ⟨k, x⟩ := hd
    simp only [Memory.write] at h
    split at h
    · simpa using h
    · split at h
      · simp only [List.mem_cons] at h ⊢
        tauto
      · simp only [List.mem_cons] at h ⊢
        rcases h with h | h
        · tauto
        · rcases ih h with h | h <;> tauto

theorem Memory.pairwise_write {m : Memory} (hm : m.Pairwise (fun x y => x.1 < y.1)) (a : Nat) (v : Sample) :
    (m.write a v).Pairwise (fun x y => x.1 < y.1) := by
  induction m with
  | nil => simp [Memory.write]
  | cons hd m ih =>
    obtain ⟨k, x⟩ := hd
    obtain ⟨hlt, htl⟩ := List.pairwise_cons.1 hm
    simp only [Memory.write]
    split
    · rename_i hak
      refine List.pairwise_cons.2 ⟨fun e he => ?_, hm⟩
      rcases List.mem_cons.1 he with rfl | he
      · exact hak
      · exact lt_trans hak (hlt e he)
    · split
      · rename_i hak
        subst hak
        exact List.pairwise_cons.2 ⟨hlt, htl⟩
      · refine List.pairwise_cons.2 ⟨fun e he => ?_, ih htl⟩
        rcases Memory.mem_write he with rfl | he
        · simp only
          omega
        · exact hlt e he

/-- A store keeps the canonical form. -/
theorem Memory.wf_write {m : Memory} (hm : m.wf) (a : Nat) (v : Sample) : (m.write a v).wf :=
  ⟨Memory.pairwise_write hm.1 a v, fun _ _ => by simp [Memory.unlisted]⟩

/-- Zeroing keeps the canonical form. -/
theorem Memory.wf_zeroBelow {m : Memory} (hm : m.wf) (n : Nat) : (m.zeroBelow n).wf := by
  refine ⟨?_, fun _ _ => by simp [Memory.unlisted]⟩
  refine List.pairwise_append.2 ⟨?_, hm.1.filter _, ?_⟩
  · exact List.pairwise_map.2 (by simpa using List.pairwise_lt_range)
  · intro x hx y hy
    obtain ⟨i, hi, rfl⟩ := List.mem_map.1 hx
    have := List.mem_range.1 hi
    have := (List.mem_filter.1 hy).2
    simp only [decide_eq_true_eq] at this
    simp only
    omega

/-- The buffer of the reset state is canonical. -/
theorem Memory.wf_reset : State.reset.buf.wf := by
  constructor
  · exact List.Pairwise.nil
  · intro e he
    exact absurd he List.not_mem_nil

/-- Read after write at the same address. -/
@[simp] theorem Memory.read_write_same (m : Memory) (a : Nat) (v : Sample) : (m.write a v).read a = some v := by
  induction m with
  | nil => simp [Memory.write, Memory.read]
  | cons hd m ih =>
    obtain ⟨k, x⟩ := hd
    simp only [Memory.write]
    split
    · simp [Memory.read]
    · split
      · simp [Memory.read]
      · rename_i h1 h2
        rw [Memory.read_cons, if_neg (by omega), ih]

/-- A store leaves every other address alone. -/
theorem Memory.read_write_other (m : Memory) {a b : Nat} (v : Sample) (h : b ≠ a) :
    (m.write a v).read b = m.read b := by
  induction m with
  | nil => simp [Memory.write, Memory.read, Memory.unlisted, Ne.symm h]
  | cons hd m ih =>
    obtain ⟨k, x⟩ := hd
    simp only [Memory.write]
    split
    · rw [Memory.read_cons, if_neg (Ne.symm h)]
    · split
      · rename_i h1 h2
        subst h2
        rw [Memory.read_cons, if_neg (Ne.symm h), Memory.read_cons, if_neg (Ne.symm h)]
      · rw [Memory.read_cons, Memory.read_cons, ih]

theorem Memory.read_zero_range (m : Memory) (xs : List Nat) (a : Nat) :
    Memory.read (xs.map (fun k => (k, (0 : Sample))) ++ m) a = if a ∈ xs then some 0 else m.read a := by
  induction xs with
  | nil => simp
  | cons k xs ih =>
    rw [List.map_cons, List.cons_append, Memory.read_cons, ih]
    by_cases hk : k = a
    · simp [hk]
    · simp [hk, Ne.symm hk]

theorem Memory.read_filter_ge (m : Memory) {n a : Nat} (h : n ≤ a) :
    Memory.read (m.filter (fun e => decide (n ≤ e.1))) a = m.read a := by
  induction m with
  | nil => rfl
  | cons hd m ih =>
    obtain ⟨k, x⟩ := hd
    by_cases hk : n ≤ k
    · rw [List.filter_cons_of_pos (by simpa using hk), Memory.read_cons, Memory.read_cons, ih]
    · rw [List.filter_cons_of_neg (by simpa using hk), ih, Memory.read_cons, if_neg (by omega)]

/-- What zeroing leaves at every address (41_config_commands.md R136). -/
theorem Memory.read_zeroBelow (m : Memory) (n a : Nat) :
    (m.zeroBelow n).read a = if a < n then some 0 else m.read a := by
  rw [Memory.zeroBelow, Memory.read_zero_range]
  by_cases h : a < n
  · simp [h]
  · simp [h, Memory.read_filter_ge m (Nat.le_of_not_lt h)]

theorem Memory.mem_zeroBelow {m : Memory} {n : Nat} {e : Nat × Sample} (h : e ∈ m.zeroBelow n) :
    e.1 < n ∨ e ∈ m := by
  rcases List.mem_append.1 h with h | h
  · obtain ⟨k, hk, rfl⟩ := List.mem_map.1 h
    exact .inl (List.mem_range.1 hk)
  · exact .inr (List.mem_filter.1 h).1

/-- A read answers a value exactly where there is a word and it holds one. -/
theorem memRead_ok {cmax a : Nat} {m : Memory} {v : Sample} :
    memRead cmax m a = .ok v ↔ a < cmax ∧ m.read a = some v := by
  unfold memRead
  split
  · simp
    omega
  · cases m.read a
    · simp
    · simp
      omega

/-- A write succeeds exactly where there is a word. -/
theorem memWrite_ok {cmax a : Nat} {m m' : Memory} {v : Sample} :
    memWrite cmax m a v = .ok m' ↔ a < cmax ∧ m.write a v = m' := by
  unfold memWrite
  split
  · simp
    omega
  · simp
    omega

end Sys2Proof.Machine
end

