-- ==== Sys2Proof/Laws/Delay.lean ====
section
/-! SUPPORT. The delay loop: what one turn does, what a whole run does, and when it completes (43_delayline.md R171). -/

namespace Sys2Proof.Machine

variable {p : Params} {c : ConfigRegs} {cur d : Nat}

@[simp] theorem delayLoop_nil (i : Nat) (m : Memory) : delayLoop p c cur d i [] m = .ok ([], m) := rfl

/-- One turn of the loop that succeeds: the word at the address is read, then overwritten, and the rest runs on the new
buffer. -/
theorem delayLoop_cons_ok {i : Nat} {x : Sample} {xs ys : List Sample} {m m' : Memory} :
    delayLoop p c cur d i (x :: xs) m = .ok (ys, m') ↔
      ∃ wet zs, (cur + i) % d < p.cmax ∧ m.read ((cur + i) % d) = some wet ∧
        delayLoop p c cur d (i + 1) xs (m.write ((cur + i) % d) (updateWord p c wet x)) = .ok (zs, m') ∧
        ys = blendWord p c x wet :: zs := by
  constructor
  · intro h
    simp only [delayLoop] at h
    cases hr : memRead p.cmax m ((cur + i) % d) with
    | error f => simp [hr] at h
    | ok wet =>
      simp only [hr] at h
      cases hw : memWrite p.cmax m ((cur + i) % d) (updateWord p c wet x) with
      | error f => simp [hw] at h
      | ok m₁ =>
        simp only [hw] at h
        cases hl : delayLoop p c cur d (i + 1) xs m₁ with
        | error f => simp [hl] at h
        | ok r =>
          obtain ⟨zs, m₂⟩ := r
          simp only [hl, Except.ok.injEq, Prod.mk.injEq] at h
          obtain ⟨hlt, hread⟩ := memRead_ok.1 hr
          obtain ⟨-, hwr⟩ := memWrite_ok.1 hw
          obtain ⟨h₁, h₂⟩ := h
          subst h₁ h₂ hwr
          exact ⟨wet, zs, hlt, hread, hl, rfl⟩
  · rintro ⟨wet, zs, hlt, hread, hl, rfl⟩
    simp only [delayLoop, memRead_ok.2 ⟨hlt, hread⟩, memWrite_ok.2 ⟨hlt, rfl⟩, hl]

/-- The loop answers one output word a sample. -/
theorem delayLoop_length {i : Nat} {xs ys : List Sample} {m m' : Memory}
    (h : delayLoop p c cur d i xs m = .ok (ys, m')) : ys.length = xs.length := by
  induction xs generalizing i ys m with
  | nil =>
    simp only [delayLoop_nil, Except.ok.injEq, Prod.mk.injEq] at h
    simp [← h.1]
  | cons x xs ih =>
    obtain ⟨wet, zs, -, -, hl, rfl⟩ := delayLoop_cons_ok.1 h
    simp [ih hl]

/-- The loop keeps the canonical form of the buffer. -/
theorem delayLoop_wf {i : Nat} {xs ys : List Sample} {m m' : Memory} (hm : m.wf)
    (h : delayLoop p c cur d i xs m = .ok (ys, m')) : m'.wf := by
  induction xs generalizing i ys m with
  | nil =>
    simp only [delayLoop_nil, Except.ok.injEq, Prod.mk.injEq] at h
    exact h.2 ▸ hm
  | cons x xs ih =>
    obtain ⟨wet, zs, -, -, hl, -⟩ := delayLoop_cons_ok.1 h
    exact ih (Memory.wf_write hm _ _) hl

/-- The loop changes no word outside the addresses of its samples. -/
theorem delayLoop_read_other {i : Nat} {xs ys : List Sample} {m m' : Memory} {a : Nat}
    (h : delayLoop p c cur d i xs m = .ok (ys, m'))
    (ha : ∀ j < xs.length, a ≠ (cur + (i + j)) % d) : m'.read a = m.read a := by
  induction xs generalizing i ys m with
  | nil =>
    simp only [delayLoop_nil, Except.ok.injEq, Prod.mk.injEq] at h
    rw [h.2]
  | cons x xs ih =>
    obtain ⟨wet, zs, -, -, hl, -⟩ := delayLoop_cons_ok.1 h
    rw [ih hl fun j hj => by simpa [Nat.add_assoc, Nat.add_comm 1 j] using ha (j + 1) (by simpa using hj)]
    exact Memory.read_write_other m _ (by simpa using ha 0 (by simp))

/-- Two stretches of samples one after the other are one stretch. -/
theorem delayLoop_append {i : Nat} {xs xs' ys ys' : List Sample} {m m₁ m₂ : Memory}
    (h₁ : delayLoop p c cur d i xs m = .ok (ys, m₁))
    (h₂ : delayLoop p c cur d (i + xs.length) xs' m₁ = .ok (ys', m₂)) :
    delayLoop p c cur d i (xs ++ xs') m = .ok (ys ++ ys', m₂) := by
  induction xs generalizing i ys m with
  | nil =>
    simp only [delayLoop_nil, Except.ok.injEq, Prod.mk.injEq] at h₁
    obtain ⟨rfl, rfl⟩ := h₁
    simpa using h₂
  | cons x xs ih =>
    obtain ⟨wet, zs, hlt, hr, hl, rfl⟩ := delayLoop_cons_ok.1 h₁
    have h₂' : delayLoop p c cur d (i + 1 + xs.length) xs' m₁ = .ok (ys', m₂) := by
      have e : i + 1 + xs.length = i + (x :: xs).length := by simp; omega
      rw [e]
      exact h₂
    exact delayLoop_cons_ok.2 ⟨wet, zs ++ ys', hlt, hr, ih hl h₂', rfl⟩

/-- The loop completes when the delay line lies in the buffer and every one of its words holds a value, and then every
word still does. -/
theorem delayLoop_completes (hd : 0 < d) (hcap : d ≤ p.cmax) (i : Nat) (xs : List Sample) (m : Memory)
    (hm : ∀ a < d, m.read a ≠ none) :
    ∃ ys m', delayLoop p c cur d i xs m = .ok (ys, m') ∧ ∀ a < d, m'.read a ≠ none := by
  induction xs generalizing i m with
  | nil => exact ⟨[], m, rfl, hm⟩
  | cons x xs ih =>
    have hlt : (cur + i) % d < d := Nat.mod_lt _ hd
    obtain ⟨wet, hwet⟩ := Option.ne_none_iff_exists'.1 (hm _ hlt)
    obtain ⟨zs, m', hl, hm'⟩ := ih (i + 1) (m.write ((cur + i) % d) (updateWord p c wet x)) (by
      intro a ha
      by_cases e : a = (cur + i) % d
      · subst e
        simp
      · rw [Memory.read_write_other m _ e]
        exact hm a ha)
    exact ⟨_, m', delayLoop_cons_ok.2 ⟨wet, zs, by omega, hwet, hl, rfl⟩, hm'⟩

end Sys2Proof.Machine
end

