-- ==== Sys2Proof/Laws/State.lean ====
section
/-! SUPPORT. One lemma per field per update of the state, so that no proof unfolds a record update. -/

namespace Sys2Proof.Machine

@[simp] theorem State.popCmd_params (s : State) :
    s.popCmd.params = s.params := rfl
@[simp] theorem State.popCmd_cfg (s : State) :
    s.popCmd.cfg = s.cfg := rfl
@[simp] theorem State.popCmd_cursor (s : State) :
    s.popCmd.cursor = s.cursor := rfl
@[simp] theorem State.popCmd_faultInfo (s : State) :
    s.popCmd.faultInfo = s.faultInfo := rfl
@[simp] theorem State.popCmd_faultCmd (s : State) :
    s.popCmd.faultCmd = s.faultCmd := rfl
@[simp] theorem State.popCmd_phase (s : State) :
    s.popCmd.phase = s.phase := rfl
@[simp] theorem State.popCmd_faultKind (s : State) :
    s.popCmd.faultKind = s.faultKind := rfl
@[simp] theorem State.popCmd_buf (s : State) :
    s.popCmd.buf = s.buf := rfl
@[simp] theorem State.popCmd_cmdQ (s : State) :
    s.popCmd.cmdQ = s.cmdQ.tail := rfl
@[simp] theorem State.popCmd_inQ (s : State) :
    s.popCmd.inQ = s.inQ := rfl
@[simp] theorem State.popCmd_outT (s : State) :
    s.popCmd.outT = s.outT := rfl
@[simp] theorem State.popCmd_rspT (s : State) :
    s.popCmd.rspT = s.rspT := rfl

@[simp] theorem State.popIn_params (s : State) (k : Nat) :
    (s.popIn k).params = s.params := rfl
@[simp] theorem State.popIn_cfg (s : State) (k : Nat) :
    (s.popIn k).cfg = s.cfg := rfl
@[simp] theorem State.popIn_cursor (s : State) (k : Nat) :
    (s.popIn k).cursor = s.cursor := rfl
@[simp] theorem State.popIn_faultInfo (s : State) (k : Nat) :
    (s.popIn k).faultInfo = s.faultInfo := rfl
@[simp] theorem State.popIn_faultCmd (s : State) (k : Nat) :
    (s.popIn k).faultCmd = s.faultCmd := rfl
@[simp] theorem State.popIn_phase (s : State) (k : Nat) :
    (s.popIn k).phase = s.phase := rfl
@[simp] theorem State.popIn_faultKind (s : State) (k : Nat) :
    (s.popIn k).faultKind = s.faultKind := rfl
@[simp] theorem State.popIn_buf (s : State) (k : Nat) :
    (s.popIn k).buf = s.buf := rfl
@[simp] theorem State.popIn_cmdQ (s : State) (k : Nat) :
    (s.popIn k).cmdQ = s.cmdQ := rfl
@[simp] theorem State.popIn_inQ (s : State) (k : Nat) :
    (s.popIn k).inQ = s.inQ.drop k := rfl
@[simp] theorem State.popIn_outT (s : State) (k : Nat) :
    (s.popIn k).outT = s.outT := rfl
@[simp] theorem State.popIn_rspT (s : State) (k : Nat) :
    (s.popIn k).rspT = s.rspT := rfl

@[simp] theorem State.pushOut_params (s : State) (ys : List Sample) :
    (s.pushOut ys).params = s.params := rfl
@[simp] theorem State.pushOut_cfg (s : State) (ys : List Sample) :
    (s.pushOut ys).cfg = s.cfg := rfl
@[simp] theorem State.pushOut_cursor (s : State) (ys : List Sample) :
    (s.pushOut ys).cursor = s.cursor := rfl
@[simp] theorem State.pushOut_faultInfo (s : State) (ys : List Sample) :
    (s.pushOut ys).faultInfo = s.faultInfo := rfl
@[simp] theorem State.pushOut_faultCmd (s : State) (ys : List Sample) :
    (s.pushOut ys).faultCmd = s.faultCmd := rfl
@[simp] theorem State.pushOut_phase (s : State) (ys : List Sample) :
    (s.pushOut ys).phase = s.phase := rfl
@[simp] theorem State.pushOut_faultKind (s : State) (ys : List Sample) :
    (s.pushOut ys).faultKind = s.faultKind := rfl
@[simp] theorem State.pushOut_buf (s : State) (ys : List Sample) :
    (s.pushOut ys).buf = s.buf := rfl
@[simp] theorem State.pushOut_cmdQ (s : State) (ys : List Sample) :
    (s.pushOut ys).cmdQ = s.cmdQ := rfl
@[simp] theorem State.pushOut_inQ (s : State) (ys : List Sample) :
    (s.pushOut ys).inQ = s.inQ := rfl
@[simp] theorem State.pushOut_outT (s : State) (ys : List Sample) :
    (s.pushOut ys).outT = s.outT ++ ys := rfl
@[simp] theorem State.pushOut_rspT (s : State) (ys : List Sample) :
    (s.pushOut ys).rspT = s.rspT := rfl

@[simp] theorem State.pushRsp_params (s : State) (w : CmdWord) :
    (s.pushRsp w).params = s.params := rfl
@[simp] theorem State.pushRsp_cfg (s : State) (w : CmdWord) :
    (s.pushRsp w).cfg = s.cfg := rfl
@[simp] theorem State.pushRsp_cursor (s : State) (w : CmdWord) :
    (s.pushRsp w).cursor = s.cursor := rfl
@[simp] theorem State.pushRsp_faultInfo (s : State) (w : CmdWord) :
    (s.pushRsp w).faultInfo = s.faultInfo := rfl
@[simp] theorem State.pushRsp_faultCmd (s : State) (w : CmdWord) :
    (s.pushRsp w).faultCmd = s.faultCmd := rfl
@[simp] theorem State.pushRsp_phase (s : State) (w : CmdWord) :
    (s.pushRsp w).phase = s.phase := rfl
@[simp] theorem State.pushRsp_faultKind (s : State) (w : CmdWord) :
    (s.pushRsp w).faultKind = s.faultKind := rfl
@[simp] theorem State.pushRsp_buf (s : State) (w : CmdWord) :
    (s.pushRsp w).buf = s.buf := rfl
@[simp] theorem State.pushRsp_cmdQ (s : State) (w : CmdWord) :
    (s.pushRsp w).cmdQ = s.cmdQ := rfl
@[simp] theorem State.pushRsp_inQ (s : State) (w : CmdWord) :
    (s.pushRsp w).inQ = s.inQ := rfl
@[simp] theorem State.pushRsp_outT (s : State) (w : CmdWord) :
    (s.pushRsp w).outT = s.outT := rfl
@[simp] theorem State.pushRsp_rspT (s : State) (w : CmdWord) :
    (s.pushRsp w).rspT = s.rspT ++ [w] := rfl

@[simp] theorem State.setPhase_params (s : State) (p : Phase) :
    (s.setPhase p).params = s.params := rfl
@[simp] theorem State.setPhase_cfg (s : State) (p : Phase) :
    (s.setPhase p).cfg = s.cfg := rfl
@[simp] theorem State.setPhase_cursor (s : State) (p : Phase) :
    (s.setPhase p).cursor = s.cursor := rfl
@[simp] theorem State.setPhase_faultInfo (s : State) (p : Phase) :
    (s.setPhase p).faultInfo = s.faultInfo := rfl
@[simp] theorem State.setPhase_faultCmd (s : State) (p : Phase) :
    (s.setPhase p).faultCmd = s.faultCmd := rfl
@[simp] theorem State.setPhase_phase (s : State) (p : Phase) :
    (s.setPhase p).phase = p := rfl
@[simp] theorem State.setPhase_faultKind (s : State) (p : Phase) :
    (s.setPhase p).faultKind = s.faultKind := rfl
@[simp] theorem State.setPhase_buf (s : State) (p : Phase) :
    (s.setPhase p).buf = s.buf := rfl
@[simp] theorem State.setPhase_cmdQ (s : State) (p : Phase) :
    (s.setPhase p).cmdQ = s.cmdQ := rfl
@[simp] theorem State.setPhase_inQ (s : State) (p : Phase) :
    (s.setPhase p).inQ = s.inQ := rfl
@[simp] theorem State.setPhase_outT (s : State) (p : Phase) :
    (s.setPhase p).outT = s.outT := rfl
@[simp] theorem State.setPhase_rspT (s : State) (p : Phase) :
    (s.setPhase p).rspT = s.rspT := rfl

@[simp] theorem State.setCfg_params (s : State) (c : ConfigRegs) :
    (s.setCfg c).params = s.params := rfl
@[simp] theorem State.setCfg_cfg (s : State) (c : ConfigRegs) :
    (s.setCfg c).cfg = c := rfl
@[simp] theorem State.setCfg_cursor (s : State) (c : ConfigRegs) :
    (s.setCfg c).cursor = s.cursor := rfl
@[simp] theorem State.setCfg_faultInfo (s : State) (c : ConfigRegs) :
    (s.setCfg c).faultInfo = s.faultInfo := rfl
@[simp] theorem State.setCfg_faultCmd (s : State) (c : ConfigRegs) :
    (s.setCfg c).faultCmd = s.faultCmd := rfl
@[simp] theorem State.setCfg_phase (s : State) (c : ConfigRegs) :
    (s.setCfg c).phase = s.phase := rfl
@[simp] theorem State.setCfg_faultKind (s : State) (c : ConfigRegs) :
    (s.setCfg c).faultKind = s.faultKind := rfl
@[simp] theorem State.setCfg_buf (s : State) (c : ConfigRegs) :
    (s.setCfg c).buf = s.buf := rfl
@[simp] theorem State.setCfg_cmdQ (s : State) (c : ConfigRegs) :
    (s.setCfg c).cmdQ = s.cmdQ := rfl
@[simp] theorem State.setCfg_inQ (s : State) (c : ConfigRegs) :
    (s.setCfg c).inQ = s.inQ := rfl
@[simp] theorem State.setCfg_outT (s : State) (c : ConfigRegs) :
    (s.setCfg c).outT = s.outT := rfl
@[simp] theorem State.setCfg_rspT (s : State) (c : ConfigRegs) :
    (s.setCfg c).rspT = s.rspT := rfl

@[simp] theorem State.setCursor_params (s : State) (v : RegWord) :
    (s.setCursor v).params = s.params := rfl
@[simp] theorem State.setCursor_cfg (s : State) (v : RegWord) :
    (s.setCursor v).cfg = s.cfg := rfl
@[simp] theorem State.setCursor_cursor (s : State) (v : RegWord) :
    (s.setCursor v).cursor = v := rfl
@[simp] theorem State.setCursor_faultInfo (s : State) (v : RegWord) :
    (s.setCursor v).faultInfo = s.faultInfo := rfl
@[simp] theorem State.setCursor_faultCmd (s : State) (v : RegWord) :
    (s.setCursor v).faultCmd = s.faultCmd := rfl
@[simp] theorem State.setCursor_phase (s : State) (v : RegWord) :
    (s.setCursor v).phase = s.phase := rfl
@[simp] theorem State.setCursor_faultKind (s : State) (v : RegWord) :
    (s.setCursor v).faultKind = s.faultKind := rfl
@[simp] theorem State.setCursor_buf (s : State) (v : RegWord) :
    (s.setCursor v).buf = s.buf := rfl
@[simp] theorem State.setCursor_cmdQ (s : State) (v : RegWord) :
    (s.setCursor v).cmdQ = s.cmdQ := rfl
@[simp] theorem State.setCursor_inQ (s : State) (v : RegWord) :
    (s.setCursor v).inQ = s.inQ := rfl
@[simp] theorem State.setCursor_outT (s : State) (v : RegWord) :
    (s.setCursor v).outT = s.outT := rfl
@[simp] theorem State.setCursor_rspT (s : State) (v : RegWord) :
    (s.setCursor v).rspT = s.rspT := rfl

@[simp] theorem State.setBuf_params (s : State) (m : Memory) :
    (s.setBuf m).params = s.params := rfl
@[simp] theorem State.setBuf_cfg (s : State) (m : Memory) :
    (s.setBuf m).cfg = s.cfg := rfl
@[simp] theorem State.setBuf_cursor (s : State) (m : Memory) :
    (s.setBuf m).cursor = s.cursor := rfl
@[simp] theorem State.setBuf_faultInfo (s : State) (m : Memory) :
    (s.setBuf m).faultInfo = s.faultInfo := rfl
@[simp] theorem State.setBuf_faultCmd (s : State) (m : Memory) :
    (s.setBuf m).faultCmd = s.faultCmd := rfl
@[simp] theorem State.setBuf_phase (s : State) (m : Memory) :
    (s.setBuf m).phase = s.phase := rfl
@[simp] theorem State.setBuf_faultKind (s : State) (m : Memory) :
    (s.setBuf m).faultKind = s.faultKind := rfl
@[simp] theorem State.setBuf_buf (s : State) (m : Memory) :
    (s.setBuf m).buf = m := rfl
@[simp] theorem State.setBuf_cmdQ (s : State) (m : Memory) :
    (s.setBuf m).cmdQ = s.cmdQ := rfl
@[simp] theorem State.setBuf_inQ (s : State) (m : Memory) :
    (s.setBuf m).inQ = s.inQ := rfl
@[simp] theorem State.setBuf_outT (s : State) (m : Memory) :
    (s.setBuf m).outT = s.outT := rfl
@[simp] theorem State.setBuf_rspT (s : State) (m : Memory) :
    (s.setBuf m).rspT = s.rspT := rfl

@[simp] theorem State.raiseFault_params (s : State) (c : Cause) (info : BitVec 20) (w : CmdWord) :
    (s.raiseFault c info w).params = s.params := rfl
@[simp] theorem State.raiseFault_cfg (s : State) (c : Cause) (info : BitVec 20) (w : CmdWord) :
    (s.raiseFault c info w).cfg = s.cfg := rfl
@[simp] theorem State.raiseFault_cursor (s : State) (c : Cause) (info : BitVec 20) (w : CmdWord) :
    (s.raiseFault c info w).cursor = s.cursor := rfl
@[simp] theorem State.raiseFault_faultInfo (s : State) (c : Cause) (info : BitVec 20) (w : CmdWord) :
    (s.raiseFault c info w).faultInfo = info ++ c.sub := rfl
@[simp] theorem State.raiseFault_faultCmd (s : State) (c : Cause) (info : BitVec 20) (w : CmdWord) :
    (s.raiseFault c info w).faultCmd = w := rfl
@[simp] theorem State.raiseFault_phase (s : State) (c : Cause) (info : BitVec 20) (w : CmdWord) :
    (s.raiseFault c info w).phase = .fault := rfl
@[simp] theorem State.raiseFault_faultKind (s : State) (c : Cause) (info : BitVec 20) (w : CmdWord) :
    (s.raiseFault c info w).faultKind = c.kind := rfl
@[simp] theorem State.raiseFault_buf (s : State) (c : Cause) (info : BitVec 20) (w : CmdWord) :
    (s.raiseFault c info w).buf = s.buf := rfl
@[simp] theorem State.raiseFault_cmdQ (s : State) (c : Cause) (info : BitVec 20) (w : CmdWord) :
    (s.raiseFault c info w).cmdQ = s.cmdQ := rfl
@[simp] theorem State.raiseFault_inQ (s : State) (c : Cause) (info : BitVec 20) (w : CmdWord) :
    (s.raiseFault c info w).inQ = s.inQ := rfl
@[simp] theorem State.raiseFault_outT (s : State) (c : Cause) (info : BitVec 20) (w : CmdWord) :
    (s.raiseFault c info w).outT = s.outT := rfl
@[simp] theorem State.raiseFault_rspT (s : State) (c : Cause) (info : BitVec 20) (w : CmdWord) :
    (s.raiseFault c info w).rspT = s.rspT := rfl

@[simp] theorem State.softReset_params (s : State) :
    s.softReset.params = s.params := rfl
@[simp] theorem State.softReset_cfg (s : State) :
    s.softReset.cfg = ConfigRegs.zero := rfl
@[simp] theorem State.softReset_cursor (s : State) :
    s.softReset.cursor = 0 := rfl
@[simp] theorem State.softReset_faultInfo (s : State) :
    s.softReset.faultInfo = 0 := rfl
@[simp] theorem State.softReset_faultCmd (s : State) :
    s.softReset.faultCmd = 0 := rfl
@[simp] theorem State.softReset_phase (s : State) :
    s.softReset.phase = .config := rfl
@[simp] theorem State.softReset_faultKind (s : State) :
    s.softReset.faultKind = .none := rfl
@[simp] theorem State.softReset_buf (s : State) :
    s.softReset.buf = s.buf := rfl
@[simp] theorem State.softReset_cmdQ (s : State) :
    s.softReset.cmdQ = s.cmdQ := rfl
@[simp] theorem State.softReset_inQ (s : State) :
    s.softReset.inQ = [] := rfl
@[simp] theorem State.softReset_outT (s : State) :
    s.softReset.outT = s.outT := rfl
@[simp] theorem State.softReset_rspT (s : State) :
    s.softReset.rspT = s.rspT := rfl

@[simp] theorem State.hardwareReset_params (s : State) :
    s.hardwareReset.params = s.params := rfl
@[simp] theorem State.hardwareReset_cfg (s : State) :
    s.hardwareReset.cfg = ConfigRegs.zero := rfl
@[simp] theorem State.hardwareReset_cursor (s : State) :
    s.hardwareReset.cursor = 0 := rfl
@[simp] theorem State.hardwareReset_faultInfo (s : State) :
    s.hardwareReset.faultInfo = 0 := rfl
@[simp] theorem State.hardwareReset_faultCmd (s : State) :
    s.hardwareReset.faultCmd = 0 := rfl
@[simp] theorem State.hardwareReset_phase (s : State) :
    s.hardwareReset.phase = .config := rfl
@[simp] theorem State.hardwareReset_faultKind (s : State) :
    s.hardwareReset.faultKind = .none := rfl
@[simp] theorem State.hardwareReset_buf (s : State) :
    s.hardwareReset.buf = [] := rfl
@[simp] theorem State.hardwareReset_cmdQ (s : State) :
    s.hardwareReset.cmdQ = [] := rfl
@[simp] theorem State.hardwareReset_inQ (s : State) :
    s.hardwareReset.inQ = [] := rfl
@[simp] theorem State.hardwareReset_outT (s : State) :
    s.hardwareReset.outT = s.outT := rfl
@[simp] theorem State.hardwareReset_rspT (s : State) :
    s.hardwareReset.rspT = s.rspT := rfl

/-! ### The state after reset -/

@[simp] theorem State.reset_params : State.reset.params = Params.default := rfl
@[simp] theorem State.reset_cfg : State.reset.cfg = ConfigRegs.zero := rfl
@[simp] theorem State.reset_cursor : State.reset.cursor = 0 := rfl
@[simp] theorem State.reset_faultInfo : State.reset.faultInfo = 0 := rfl
@[simp] theorem State.reset_faultCmd : State.reset.faultCmd = 0 := rfl
@[simp] theorem State.reset_phase : State.reset.phase = .config := rfl
@[simp] theorem State.reset_faultKind : State.reset.faultKind = .none := rfl
@[simp] theorem State.reset_buf : State.reset.buf = [] := rfl
@[simp] theorem State.reset_cmdQ : State.reset.cmdQ = [] := rfl
@[simp] theorem State.reset_inQ : State.reset.inQ = [] := rfl
@[simp] theorem State.reset_outT : State.reset.outT = [] := rfl
@[simp] theorem State.reset_rspT : State.reset.rspT = [] := rfl

/-! ### The views -/

@[simp] theorem State.status_popCmd (s : State) : s.popCmd.status = s.status := rfl

@[simp] theorem State.faultO_iff (s : State) : s.faultO = true ↔ s.phase = .fault := by
  simp [State.faultO]

end Sys2Proof.Machine
end

