-- ==== Sys2Proof/Laws/Ops.lean ====
section
/-! SUPPORT. What the shared operations of a step can do: an illegal word, and the phase check. -/

namespace Sys2Proof.Machine

/-- An illegal word always leaves a next state: dropped in FAULT, a fault entry elsewhere (30_encoding.md R90). -/
theorem illegalWord_next {v : Illegal} {w : CmdWord} {s t : State} (h : illegalWord v w s = .next t) :
    (s.phase = .fault ∧ t = s.popCmd) ∨
      (s.phase ≠ .fault ∧ t = s.popCmd.raiseFault (illegalCause v) 0 w) := by
  unfold illegalWord at h
  split at h
  · exact .inl ⟨‹_›, (Host.Outcome.next.inj h).symm⟩
  · exact .inr ⟨‹_›, (Host.Outcome.next.inj h).symm⟩

theorem illegalWord_ne_fault (v : Illegal) (w : CmdWord) (s : State) (f : Fault) :
    illegalWord v w s ≠ .fault f := by
  unfold illegalWord
  split <;> simp

theorem illegalWord_ne_refused (v : Illegal) (w : CmdWord) (s : State) (r : Refusal) :
    illegalWord v w s ≠ .refused r := by
  unfold illegalWord
  split <;> simp

/-- The phase check in the phase the command is legal in. -/
theorem inPhase_legal {q : Phase} {w : CmdWord} {s : State} {body : State → Host.Outcome State Fault Refusal}
    (hq : q ≠ .fault) (h : s.phase = q) : inPhase q w s body = body s := by
  subst h
  simp [inPhase, hq]

/-- The phase check in FAULT drops the word (60_exceptions.md R224). -/
theorem inPhase_fault {q : Phase} {w : CmdWord} {s : State} {body : State → Host.Outcome State Fault Refusal}
    (h : s.phase = .fault) : inPhase q w s body = .next s.popCmd := by
  simp [inPhase, h]

/-- The phase check in any other phase raises `WrongPhase` (30_encoding.md R95). -/
theorem inPhase_wrong {q : Phase} {w : CmdWord} {s : State} {body : State → Host.Outcome State Fault Refusal}
    (hf : s.phase ≠ .fault) (h : s.phase ≠ q) :
    inPhase q w s body = .next (s.popCmd.raiseFault .wrongPhase (s.phase.num.setWidth 20) w) := by
  simp [inPhase, hf, h]

/-- All the phase check can do. -/
theorem inPhase_cases (q : Phase) (w : CmdWord) (s : State) (body : State → Host.Outcome State Fault Refusal) :
    (s.phase = .fault ∧ inPhase q w s body = .next s.popCmd) ∨
      (s.phase = q ∧ s.phase ≠ .fault ∧ inPhase q w s body = body s) ∨
      (s.phase ≠ .fault ∧ s.phase ≠ q ∧
        inPhase q w s body = .next (s.popCmd.raiseFault .wrongPhase (s.phase.num.setWidth 20) w)) := by
  by_cases hf : s.phase = .fault
  · exact .inl ⟨hf, inPhase_fault hf⟩
  · by_cases hq : s.phase = q
    · refine .inr (.inl ⟨hq, hf, ?_⟩)
      rw [inPhase, if_neg hf, if_pos hq]
    · exact .inr (.inr ⟨hf, hq, inPhase_wrong hf hq⟩)

end Sys2Proof.Machine
end

