-- ==== Sys2Proof/Laws/Exec.lean ====
section
/-! SUPPORT. What one step can do: one inversion lemma for the step, one for `exec`, one for the transforms of `PROC`. -/

namespace Sys2Proof.Machine

/-- A step with a command in the queue is the meaning of its head word. -/
theorem step_cons {s : State} {w : CmdWord} {q : List CmdWord} (h : s.cmdQ = w :: q) :
    step s = match decode w with
      | .ok i => exec i s
      | .error v => illegalWord v w s := by
  have hf : fetch s = some (w, decode w) := by simp [fetch, h]
  unfold step
  rw [hf]
  cases decode w <;> rfl

/-- A step without a command is no step (30_encoding.md R96). -/
theorem step_nil {s : State} (h : s.cmdQ = []) : step s = .fault .idle := by
  simp [step, fetch, h]

/-- A step with a next state took the head word of `CMD_Q`: its command, or its illegal verdict. -/
theorem step_next {s t : State} (h : step s = .next t) :
    ∃ w q, s.cmdQ = w :: q ∧
      ((∃ i, decode w = .ok i ∧ exec i s = .next t) ∨
        (∃ v, decode w = .error v ∧ illegalWord v w s = .next t)) := by
  cases hq : s.cmdQ with
  | nil => simp [step_nil hq] at h
  | cons w q =>
    refine ⟨w, q, rfl, ?_⟩
    rw [step_cons hq] at h
    cases hd : decode w with
    | ok i => exact .inl ⟨i, rfl, by simpa [hd] using h⟩
    | error v => exact .inr ⟨v, rfl, by simpa [hd] using h⟩

/-- All a phase check followed by a body can answer as a next state. -/
theorem inPhase_next {q : Phase} {w : CmdWord} {s t : State} {body : State → Host.Outcome State Fault Refusal}
    (h : inPhase q w s body = .next t) :
    (s.phase = .fault ∧ t = s.popCmd) ∨
      (s.phase = q ∧ s.phase ≠ .fault ∧ body s = .next t) ∨
      (s.phase ≠ .fault ∧ t = s.popCmd.raiseFault .wrongPhase (s.phase.num.setWidth 20) w) := by
  rcases inPhase_cases q w s body with ⟨hf, e⟩ | ⟨hq, hf, e⟩ | ⟨hf, -, e⟩ <;> rw [e] at h
  · exact .inl ⟨hf, (Host.Outcome.next.inj h).symm⟩
  · exact .inr (.inl ⟨hq, hf, h⟩)
  · exact .inr (.inr ⟨hf, (Host.Outcome.next.inj h).symm⟩)

/-- All a transform can do that succeeds: an output block, and for the delay line the buffer and the cursor (R157). -/
theorem runTransform_ok {tr : Transform} {x y : List Sample} {s t : State} (h : runTransform tr x s = .ok (y, t)) :
    (tr = .distortion ∧ y = distortionBlock s.params s.cfg x ∧ t = s) ∨
      (tr = .passthroughStereo ∧ y = passthroughBlock x ∧ t = s) ∨
      (tr = .delay ∧ s.cfg.dlen.toNat ≠ 0 ∧ ∃ m,
        delayLoop s.params s.cfg s.cursor.toNat s.cfg.dlen.toNat 0 x s.buf = .ok (y, m) ∧
        t = (s.setBuf m).setCursor (nextCursor s.cursor x.length s.cfg.dlen.toNat)) := by
  cases tr with
  | distortion =>
    simp only [runTransform, Except.ok.injEq, Prod.mk.injEq] at h
    exact .inl ⟨rfl, h.1.symm, h.2.symm⟩
  | passthroughStereo =>
    simp only [runTransform, Except.ok.injEq, Prod.mk.injEq] at h
    exact .inr (.inl ⟨rfl, h.1.symm, h.2.symm⟩)
  | delay =>
    simp only [runTransform, delayTransform] at h
    split at h
    · cases h
    · rename_i hd
      split at h
      · cases h
      · rename_i y' m hl
        simp only [Except.ok.injEq, Prod.mk.injEq] at h
        obtain ⟨rfl, rfl⟩ := h
        exact .inr (.inr ⟨rfl, hd, m, hl, rfl⟩)

/-- What the checks of `PROC` say when they pass (R153). -/
theorem procChecks_ok {ch : BitVec 1} {n : BitVec 24} {s : State} {tr : Transform} (h : procChecks ch n s = .ok tr) :
    ch = s.cfg.kind.cap ∧ s.cfg.kind.transform = some tr ∧ n.toNat ≤ s.cfg.blockSize.toNat := by
  unfold procChecks at h
  split at h
  · cases h
  · rename_i hc
    split at h
    · cases h
    · rename_i t' ht
      split at h
      · cases h
      · rename_i hn
        cases h
        exact ⟨not_not.1 hc, ht, by omega⟩

/-- What a `PROC` in STREAM answers as a next state: a fault entry, or the whole block done. -/
theorem execProc_stream_next {ch : BitVec 1} {n : BitVec 24} {s t : State} (hp : s.phase = .stream)
    (h : execProc ch n s = .next t) :
    (∃ c info, procChecks ch n s = .error (c, info) ∧ t = s.popCmd.raiseFault c info (encode (.proc ch n))) ∨
      (∃ tr y s', procChecks ch n s = .ok tr ∧ blockWords ch n ≤ s.inQ.length ∧
        runTransform tr (s.inQ.take (blockWords ch n)) (s.popCmd.popIn (blockWords ch n)) = .ok (y, s') ∧
        t = s'.pushOut y) := by
  unfold execProc at h
  rw [inPhase_legal (by decide) hp] at h
  split at h
  · rename_i c info hc
    exact .inl ⟨c, info, hc, (Host.Outcome.next.inj h).symm⟩
  · rename_i tr hc
    split at h
    · cases h
    · rename_i hlen
      split at h
      · cases h
      · rename_i y s' hr
        exact .inr ⟨tr, y, s', hc, by omega, hr, (Host.Outcome.next.inj h).symm⟩

/-- `WRC` with a next state: an illegal register number, a drop, a wrong phase, or the write (R132). -/
theorem execWrc_next {r : RegNum} {v : RegWord} {s t : State} (h : execWrc r v s = .next t) :
    (s.phase = .fault ∧ t = s.popCmd) ∨
      (s.phase ≠ .fault ∧ ∃ c info, t = s.popCmd.raiseFault c info (encode (.wrc r v))) ∨
      (r.toNat ≤ 7 ∧ s.phase = .config ∧ t = s.popCmd.setCfg (s.cfg.write r v)) := by
  unfold execWrc at h
  split at h
  · rcases illegalWord_next h with ⟨hf, rfl⟩ | ⟨hf, rfl⟩
    · exact .inl ⟨hf, rfl⟩
    · exact .inr (.inl ⟨hf, _, _, rfl⟩)
  · rcases inPhase_next h with ⟨hf, rfl⟩ | ⟨hq, -, hb⟩ | ⟨hf, rfl⟩
    · exact .inl ⟨hf, rfl⟩
    · exact .inr (.inr ⟨by omega, hq, (Host.Outcome.next.inj hb).symm⟩)
    · exact .inr (.inl ⟨hf, _, _, rfl⟩)

/-- `RDR` with a next state: the response, or an illegal register number (R133). -/
theorem execRdr_next {r : RegNum} {s t : State} (h : execRdr r s = .next t) :
    (s.phase = .fault ∧ t = s.popCmd) ∨
      (s.phase ≠ .fault ∧ ∃ c info, t = s.popCmd.raiseFault c info (encode (.rdr r))) ∨
      (∃ w, s.readReg r = some w ∧ t = s.popCmd.pushRsp w) := by
  unfold execRdr at h
  split at h
  · rename_i w hw
    exact .inr (.inr ⟨w, hw, (Host.Outcome.next.inj h).symm⟩)
  · rcases illegalWord_next h with ⟨hf, rfl⟩ | ⟨hf, rfl⟩
    · exact .inl ⟨hf, rfl⟩
    · exact .inr (.inl ⟨hf, _, _, rfl⟩)

/-- `INIT` with a next state: a drop, a fault entry, or the constructed effect (R134). -/
theorem execInit_next {s t : State} (h : execInit s = .next t) :
    (s.phase = .fault ∧ t = s.popCmd) ∨
      (s.phase ≠ .fault ∧ ∃ c info, t = s.popCmd.raiseFault c info (encode .init)) ∨
      (s.phase = .config ∧ validate s.params s.cfg = none ∧
        t = ((s.popCmd.setBuf (initBuf s)).setCursor 0).setPhase .ready) := by
  rcases inPhase_next h with ⟨hf, rfl⟩ | ⟨hq, hf, hb⟩ | ⟨hf, rfl⟩
  · exact .inl ⟨hf, rfl⟩
  · split at hb
    · exact .inr (.inl ⟨hf, _, _, (Host.Outcome.next.inj hb).symm⟩)
    · rename_i hv
      exact .inr (.inr ⟨hq, hv, (Host.Outcome.next.inj hb).symm⟩)
  · exact .inr (.inl ⟨hf, _, _, rfl⟩)

/-- `OPEN` with a next state: a drop, a fault entry, or the opened stream (R150). -/
theorem execOpen_next {rate : BitVec 24} {s t : State} (h : execOpen rate s = .next t) :
    (s.phase = .fault ∧ t = s.popCmd) ∨
      (s.phase ≠ .fault ∧ ∃ c info, t = s.popCmd.raiseFault c info (encode (.openStream rate))) ∨
      (s.phase = .ready ∧ rate = s.cfg.sampleRate ∧ t = s.popCmd.setPhase .stream) := by
  rcases inPhase_next h with ⟨hf, rfl⟩ | ⟨hq, hf, hb⟩ | ⟨hf, rfl⟩
  · exact .inl ⟨hf, rfl⟩
  · split at hb
    · rename_i hr
      exact .inr (.inr ⟨hq, hr, (Host.Outcome.next.inj hb).symm⟩)
    · exact .inr (.inl ⟨hf, _, _, (Host.Outcome.next.inj hb).symm⟩)
  · exact .inr (.inl ⟨hf, _, _, rfl⟩)

/-- `PROC` with a next state: a drop, a fault entry, or the whole block done (R152). -/
theorem execProc_next {ch : BitVec 1} {n : BitVec 24} {s t : State} (h : execProc ch n s = .next t) :
    (s.phase = .fault ∧ t = s.popCmd) ∨
      (s.phase ≠ .fault ∧ ∃ c info, t = s.popCmd.raiseFault c info (encode (.proc ch n))) ∨
      (∃ tr y s', s.phase = .stream ∧ procChecks ch n s = .ok tr ∧ blockWords ch n ≤ s.inQ.length ∧
        runTransform tr (s.inQ.take (blockWords ch n)) (s.popCmd.popIn (blockWords ch n)) = .ok (y, s') ∧
        t = s'.pushOut y) := by
  rcases inPhase_next h with ⟨hf, rfl⟩ | ⟨hq, hf, -⟩ | ⟨hf, rfl⟩
  · exact .inl ⟨hf, rfl⟩
  · rcases execProc_stream_next hq h with ⟨c, info, -, rfl⟩ | ⟨tr, y, s', hc, hl, hr, rfl⟩
    · exact .inr (.inl ⟨hf, c, info, rfl⟩)
    · exact .inr (.inr ⟨tr, y, s', hq, hc, hl, hr, rfl⟩)
  · exact .inr (.inl ⟨hf, _, _, rfl⟩)

/-- `END` with a next state: a drop, a wrong phase, or the end of the stream (R158). -/
theorem execEnd_next {s t : State} (h : execEnd s = .next t) :
    (s.phase = .fault ∧ t = s.popCmd) ∨
      (s.phase ≠ .fault ∧ ∃ c info, t = s.popCmd.raiseFault c info (encode .endStream)) ∨
      (s.phase = .stream ∧ t = s.popCmd.setPhase .done) := by
  rcases inPhase_next h with ⟨hf, rfl⟩ | ⟨hq, -, hb⟩ | ⟨hf, rfl⟩
  · exact .inl ⟨hf, rfl⟩
  · exact .inr (.inr ⟨hq, (Host.Outcome.next.inj hb).symm⟩)
  · exact .inr (.inl ⟨hf, _, _, rfl⟩)

/-- What the instruction itself does where it is neither dropped nor raises a fault (the `ok` entries of
30_encoding.md R95). -/
def OwnEffect (s t : State) : Instr → Prop
  | .nop => t = s.popCmd
  | .wrc r v => r.toNat ≤ 7 ∧ s.phase = .config ∧ t = s.popCmd.setCfg (s.cfg.write r v)
  | .rdr r => ∃ w, s.readReg r = some w ∧ t = s.popCmd.pushRsp w
  | .init => s.phase = .config ∧ validate s.params s.cfg = none ∧
      t = ((s.popCmd.setBuf (initBuf s)).setCursor 0).setPhase .ready
  | .openStream rate => s.phase = .ready ∧ rate = s.cfg.sampleRate ∧ t = s.popCmd.setPhase .stream
  | .proc ch n => ∃ tr y s', s.phase = .stream ∧ procChecks ch n s = .ok tr ∧ blockWords ch n ≤ s.inQ.length ∧
      runTransform tr (s.inQ.take (blockWords ch n)) (s.popCmd.popIn (blockWords ch n)) = .ok (y, s') ∧
      t = s'.pushOut y
  | .endStream => s.phase = .stream ∧ t = s.popCmd.setPhase .done
  | .rst => t = s.popCmd.softReset
  | .reserved7 _ => False
  | .reserved8 _ => False
  | .reserved9 _ => False
  | .reservedA _ => False
  | .reservedB _ => False
  | .reservedC _ => False
  | .reservedD _ => False
  | .reservedE _ => False

/-- All an instruction can do that has a next state: its word is dropped in FAULT, it raises a fault, or it has its own
effect. -/
theorem exec_next_cases {i : Instr} {s t : State} (h : exec i s = .next t) :
    (s.phase = .fault ∧ t = s.popCmd) ∨
      (s.phase ≠ .fault ∧ ∃ c info, t = s.popCmd.raiseFault c info (encode i)) ∨ OwnEffect s t i := by
  have illegal : ∀ {v}, illegalWord v (encode i) s = .next t →
      (s.phase = .fault ∧ t = s.popCmd) ∨
        (s.phase ≠ .fault ∧ ∃ c info, t = s.popCmd.raiseFault c info (encode i)) ∨ OwnEffect s t i := by
    intro v hv
    rcases illegalWord_next hv with ⟨hf, rfl⟩ | ⟨hf, rfl⟩
    · exact .inl ⟨hf, rfl⟩
    · exact .inr (.inl ⟨hf, _, _, rfl⟩)
  cases i with
  | nop => exact .inr (.inr (Host.Outcome.next.inj h).symm)
  | wrc r v => exact execWrc_next h
  | rdr r => exact execRdr_next h
  | init => exact execInit_next h
  | openStream rate => exact execOpen_next h
  | proc ch n => exact execProc_next h
  | endStream => exact execEnd_next h
  | rst => exact .inr (.inr (Host.Outcome.next.inj h).symm)
  | reserved7 x => exact illegal h
  | reserved8 x => exact illegal h
  | reserved9 x => exact illegal h
  | reservedA x => exact illegal h
  | reservedB x => exact illegal h
  | reservedC x => exact illegal h
  | reservedD x => exact illegal h
  | reservedE x => exact illegal h

/-- All a step can do that has a next state, by its head word: a drop in FAULT, a fault entry recording that word, or the
own effect of the instruction the word decodes to. -/
theorem step_next_cases {s t : State} (h : step s = .next t) :
    ∃ w q, s.cmdQ = w :: q ∧
      ((s.phase = .fault ∧ t = s.popCmd) ∨
        (s.phase ≠ .fault ∧ ∃ c info w', t = s.popCmd.raiseFault c info w' ∧
          (w' = w ∨ ∃ i, decode w = .ok i ∧ w' = encode i)) ∨
        ∃ i, decode w = .ok i ∧ OwnEffect s t i) := by
  obtain ⟨w, q, hq, ⟨i, hd, he⟩ | ⟨v, -, hv⟩⟩ := step_next h
  · refine ⟨w, q, hq, ?_⟩
    rcases exec_next_cases he with hc | ⟨hf, c, info, ht⟩ | ho
    · exact .inl hc
    · exact .inr (.inl ⟨hf, c, info, _, ht, .inr ⟨i, hd, rfl⟩⟩)
    · exact .inr (.inr ⟨i, hd, ho⟩)
  · refine ⟨w, q, hq, ?_⟩
    rcases illegalWord_next hv with hc | ⟨hf, ht⟩
    · exact .inl hc
    · exact .inr (.inl ⟨hf, _, _, w, ht, .inl rfl⟩)

end Sys2Proof.Machine
end

