-- ==== Sys2Proof/Laws/Frames.lean ====
section
/-! SUPPORT. What the operations behind a command leave alone, and what the checks say when they pass. -/

namespace Sys2Proof.Machine

/-- A transform writes at most the buffer and the cursor (42_stream_commands.md R157). -/
theorem runTransform_frame {tr : Transform} {x y : List Sample} {s t : State} (h : runTransform tr x s = .ok (y, t)) :
    t = { s with buf := t.buf, cursor := t.cursor } ∧ (tr ≠ .delay → t = s) := by
  rcases runTransform_ok h with ⟨rfl, -, rfl⟩ | ⟨rfl, -, rfl⟩ | ⟨rfl, -, m, -, rfl⟩
  · exact ⟨rfl, fun _ => rfl⟩
  · exact ⟨rfl, fun _ => rfl⟩
  · exact ⟨rfl, fun hne => absurd rfl hne⟩

/-- A command that has its own effect takes exactly its word from `CMD_Q` (10_state.md R41). -/
theorem OwnEffect.cmdQ {s t : State} {i : Instr} (h : OwnEffect s t i) : t.cmdQ = s.cmdQ.tail := by
  cases i <;> simp only [OwnEffect] at h
  case nop => subst h; rfl
  case wrc => obtain ⟨-, -, rfl⟩ := h; rfl
  case rdr => obtain ⟨_, -, rfl⟩ := h; rfl
  case init => obtain ⟨-, -, rfl⟩ := h; rfl
  case openStream => obtain ⟨-, -, rfl⟩ := h; rfl
  case proc =>
    obtain ⟨_, _, _, -, -, -, hr, rfl⟩ := h
    simpa using congrArg State.cmdQ (runTransform_frame hr).1
  case endStream => obtain ⟨-, rfl⟩ := h; rfl
  case rst => subst h; rfl

/-- Every cause belongs to a kind with a non-zero code (60_exceptions.md R211). -/
theorem Cause.kind_ne_none (c : Cause) : c.kind ≠ .none := by cases c <;> decide

/-- Every sub-cause number is non-zero (60_exceptions.md R222). -/
theorem Cause.sub_ne_zero (c : Cause) : c.sub ≠ 0 := by cases c <;> decide

/-- The numbers without a register (10_state.md R21). -/
theorem State.readReg_none {s : State} {r : RegNum} (h : 12 < r.toNat) : s.readReg r = none := by
  unfold State.readReg
  split <;> first | omega | rfl

/-- The numbers with a register (10_state.md R21). -/
theorem State.readReg_some {s : State} {r : RegNum} (h : r.toNat ≤ 12) : ∃ w, s.readReg r = some w := by
  unfold State.readReg
  generalize r.toNat = k at *
  interval_cases k <;> simp

/-- What a passed validation says (41_config_commands.md R135). -/
theorem validate_none {p : Params} {c : ConfigRegs} (h : validate p c = none) :
    c.sampleRate ≠ 0 ∧ c.blockSize ≠ 0 ∧ c.ctrlReserved = 0 ∧
      (c.kind = .delay → c.dlen.toNat ≤ c.cap.toNat ∧ c.blockSize.toNat ≤ c.dlen.toNat ∧ c.cap.toNat ≤ p.cmax ∧
        gain c.feedback ≤ one ∧ gain c.mix ≤ one) := by
  unfold validate at h
  split at h
  · cases h
  split at h
  · cases h
  split at h
  · cases h
  rename_i h₁ h₂ h₃
  refine ⟨h₁, h₂, not_not.1 h₃, fun hk => ?_⟩
  rw [if_neg (not_not.2 hk)] at h
  split at h
  · cases h
  split at h
  · cases h
  split at h
  · cases h
  split at h
  · cases h
  split at h
  · cases h
  omega

/-- The delay loop stores below `CMAX` only (10_state.md R37). -/
theorem delayLoop_inRange {p : Params} {c : ConfigRegs} {cur d i : Nat} {xs ys : List Sample} {m m' : Memory}
    (h : delayLoop p c cur d i xs m = .ok (ys, m')) (hm : ∀ e ∈ m, e.1 < p.cmax) : ∀ e ∈ m', e.1 < p.cmax := by
  induction xs generalizing i ys m with
  | nil =>
    simp only [delayLoop_nil, Except.ok.injEq, Prod.mk.injEq] at h
    exact h.2 ▸ hm
  | cons x xs ih =>
    obtain ⟨wet, zs, hlt, hr, hl, rfl⟩ := delayLoop_cons_ok.1 h
    refine ih hl fun e he => ?_
    rcases Memory.mem_write he with rfl | he
    · exact hlt
    · exact hm e he

/-- A transform never asks the engine to wait. -/
theorem runTransform_error {tr : Transform} {x : List Sample} {s : State} {f : Fault}
    (h : runTransform tr x s = .error f) : f = .bufNoValue ∨ f = .bufNoWord ∨ f = .modByZero := by
  have loop : ∀ (p : Params) (c : ConfigRegs) (cur d i : Nat) (xs : List Sample) (m : Memory),
      delayLoop p c cur d i xs m = .error f → f = .bufNoValue ∨ f = .bufNoWord := by
    intro p c cur d i xs m
    induction xs generalizing i m with
    | nil => intro h; cases h
    | cons x xs ih =>
      intro h
      simp only [delayLoop] at h
      split at h
      · rename_i hr
        cases h
        unfold memRead at hr
        split at hr
        · cases hr; exact .inr rfl
        · split at hr <;> cases hr; exact .inl rfl
      · split at h
        · rename_i hw
          cases h
          unfold memWrite at hw
          split at hw <;> cases hw
          exact .inr rfl
        · split at h
          · rename_i hl
            cases h
            exact ih _ _ hl
          · cases h
  cases tr with
  | distortion => cases h
  | passthroughStereo => cases h
  | delay =>
    simp only [runTransform, delayTransform] at h
    split at h
    · cases h
      exact .inr (.inr rfl)
    · split at h
      · rename_i hl
        cases h
        rcases loop _ _ _ _ _ _ _ hl with h | h
        · exact .inl h
        · exact .inr (.inl h)
      · cases h

/-- No command of the table is refused by the model. -/
theorem exec_ne_refused (i : Instr) (s : State) (r : Refusal) : exec i s ≠ .refused r := by
  have phase : ∀ (q : Phase) (w : CmdWord) (body : State → Host.Outcome State Fault Refusal),
      body s ≠ .refused r → inPhase q w s body ≠ .refused r := by
    intro q w body hb
    unfold inPhase
    split
    · simp
    · split
      · exact hb
      · simp
  cases i with
  | nop => intro h; cases h
  | rst => intro h; cases h
  | wrc r' v =>
    show execWrc r' v s ≠ _
    unfold execWrc
    split
    · exact illegalWord_ne_refused _ _ _ _
    · exact phase _ _ _ (by simp)
  | rdr r' =>
    show execRdr r' s ≠ _
    unfold execRdr
    split
    · simp
    · exact illegalWord_ne_refused _ _ _ _
  | init =>
    show execInit s ≠ _
    unfold execInit
    refine phase _ _ _ ?_
    split <;> simp
  | openStream rate =>
    show execOpen rate s ≠ _
    unfold execOpen
    refine phase _ _ _ ?_
    split <;> simp
  | proc ch n =>
    show execProc ch n s ≠ _
    unfold execProc
    refine phase _ _ _ ?_
    split
    · simp
    · split
      · simp
      · split <;> simp
  | endStream =>
    show execEnd s ≠ _
    unfold execEnd
    exact phase _ _ _ (by simp)
  | reserved7 x => exact illegalWord_ne_refused _ _ _ _
  | reserved8 x => exact illegalWord_ne_refused _ _ _ _
  | reserved9 x => exact illegalWord_ne_refused _ _ _ _
  | reservedA x => exact illegalWord_ne_refused _ _ _ _
  | reservedB x => exact illegalWord_ne_refused _ _ _ _
  | reservedC x => exact illegalWord_ne_refused _ _ _ _
  | reservedD x => exact illegalWord_ne_refused _ _ _ _
  | reservedE x => exact illegalWord_ne_refused _ _ _ _

/-- The number of input words of a mono block (30_encoding.md R82). -/
theorem blockWords_mono (n : BitVec 24) : blockWords 0 n = n.toNat := by simp [blockWords]

/-- A mono block that passes the checks (42_stream_commands.md R153). -/
theorem procChecks_pass {s : State} {n : BitVec 24} {tr : Transform} (hk : s.cfg.kind.cap = 0)
    (ht : s.cfg.kind.transform = some tr) (hn : n.toNat ≤ s.cfg.blockSize.toNat) : procChecks 0 n s = .ok tr := by
  simp only [procChecks, hk, ne_eq, not_true_eq_false, if_false, ht]
  rw [if_neg (by omega)]

/-- A mono block that passes the checks and has its samples runs its transform (42_stream_commands.md R152). -/
theorem execProc_run {s s' : State} {n : BitVec 24} {tr : Transform} {y : List Sample} (hp : s.phase = .stream)
    (hk : s.cfg.kind.cap = 0) (ht : s.cfg.kind.transform = some tr) (hn : n.toNat ≤ s.cfg.blockSize.toNat)
    (hl : n.toNat ≤ s.inQ.length)
    (h : runTransform tr (s.inQ.take n.toNat) (s.popCmd.popIn n.toNat) = .ok (y, s')) :
    execProc 0 n s = .next (s'.pushOut y) := by
  unfold execProc
  rw [inPhase_legal (by decide) hp]
  simp only [procChecks_pass hk ht hn, blockWords_mono, if_neg (show ¬ s.inQ.length < n.toNat by omega), h]

/-- A passthrough block has two words for each input word (44_other_effects.md R195). -/
theorem passthroughBlock_length (x : List Sample) : (passthroughBlock x).length = 2 * x.length := by
  induction x with
  | nil => rfl
  | cons a x ih =>
    simp only [passthroughBlock, List.flatMap_cons, List.length_append, List.length_cons, List.length_nil] at *
    omega

/-- The two channels of an interleaved passthrough block (44_other_effects.md R195). -/
theorem passthroughBlock_getElem? (x : List Sample) (i : Nat) (h : i < x.length) :
    (passthroughBlock x)[2 * i]? = x[i]? ∧ (passthroughBlock x)[2 * i + 1]? = x[i]? := by
  induction x generalizing i with
  | nil => simp at h
  | cons a x ih =>
    cases i with
    | zero => simp [passthroughBlock]
    | succ i =>
      have := ih i (by simpa using h)
      simp only [passthroughBlock, List.flatMap_cons] at *
      rw [show 2 * (i + 1) = 2 * i + 1 + 1 by ring]
      simpa using this

end Sys2Proof.Machine
end

