-- ==== Sys2Proof/Laws/PerInstr.lean ====
section
/-! SUPPORT. Statements made for each instruction as syntax: the fields of its command word (30_encoding.md R81, R83). -/

namespace Sys2Proof.Laws.EncodeFields

/-- The word's opcode field is the row's opcode, and its low 28 bits are the row's operand bits. -/
def Statement (i : Instr) : Prop := opcField (encode i) = i.opcode ∧ lowField (encode i) = i.lowBits

theorem nop : Statement .nop := ⟨opcField_encode _, lowField_encode _⟩

theorem wrc (r : RegNum) (v : RegWord) : Statement (.wrc r v) := ⟨opcField_encode _, lowField_encode _⟩

theorem rdr (r : RegNum) : Statement (.rdr r) := ⟨opcField_encode _, lowField_encode _⟩

theorem init : Statement .init := ⟨opcField_encode _, lowField_encode _⟩

theorem openStream (rate : BitVec 24) : Statement (.openStream rate) := ⟨opcField_encode _, lowField_encode _⟩

theorem proc (ch : BitVec 1) (n : BitVec 24) : Statement (.proc ch n) := ⟨opcField_encode _, lowField_encode _⟩

theorem endStream : Statement .endStream := ⟨opcField_encode _, lowField_encode _⟩

theorem rst : Statement .rst := ⟨opcField_encode _, lowField_encode _⟩

theorem reserved7 (x : BitVec 28) : Statement (.reserved7 x) := ⟨opcField_encode _, lowField_encode _⟩

theorem reserved8 (x : BitVec 28) : Statement (.reserved8 x) := ⟨opcField_encode _, lowField_encode _⟩

theorem reserved9 (x : BitVec 28) : Statement (.reserved9 x) := ⟨opcField_encode _, lowField_encode _⟩

theorem reservedA (x : BitVec 28) : Statement (.reservedA x) := ⟨opcField_encode _, lowField_encode _⟩

theorem reservedB (x : BitVec 28) : Statement (.reservedB x) := ⟨opcField_encode _, lowField_encode _⟩

theorem reservedC (x : BitVec 28) : Statement (.reservedC x) := ⟨opcField_encode _, lowField_encode _⟩

theorem reservedD (x : BitVec 28) : Statement (.reservedD x) := ⟨opcField_encode _, lowField_encode _⟩

theorem reservedE (x : BitVec 28) : Statement (.reservedE x) := ⟨opcField_encode _, lowField_encode _⟩

end Sys2Proof.Laws.EncodeFields
end

