-- ==== Sys2Proof/Machine/Assembler.lean ====
section
/-! DEFINITION. The spec's notation for command listings (30_encoding.md R97) and its pseudo-commands (R98). It is a
convenience of the host's side: no step uses it. What R97 leaves open is in notes/assumptions/17.md. -/

namespace Sys2Proof.Machine

/-- What one line of a listing says (R97). -/
inductive AsmLine where
  /-- Nothing but blanks and a comment. -/
  | blank
  /-- One command; a pseudo-command is the one command it expands to (R98). -/
  | cmd (i : Instr)
  /-- `IN:` sample words the host appends to `IN_Q`. -/
  | input (us : List Sample)
  /-- `OUT:` expected words of `OUT_T`. -/
  | output (us : List Sample)
  /-- `RSP:` expected words of `RSP_T`. -/
  | response (ws : List CmdWord)
  deriving DecidableEq, Repr

/-- The characters that separate a mnemonic from its operands. -/
def isBlank (c : Char) : Bool := c = ' ' || c = '\t'

/-- The text before the first `;` (R97: a semicolon starts a comment). -/
def stripComment (cs : List Char) : List Char := cs.takeWhile (fun c => c ≠ ';')

/-- The text without blanks at either end. -/
def trim (cs : List Char) : List Char := ((cs.dropWhile isBlank).reverse.dropWhile isBlank).reverse

/-- The pieces between commas, each trimmed; the empty text has none. -/
def splitCommas (cs : List Char) : List (List Char) :=
  let rec go : List Char → List Char → List (List Char)
    | acc, [] => [trim acc.reverse]
    | acc, c :: rest => if c = ',' then trim acc.reverse :: go [] rest else go (c :: acc) rest
  if trim cs = [] then [] else go [] cs

/-- The value of a digit is its place in the row of the digits of its notation. -/
def placeIn (row : String) (c : Char) : Option Nat := row.toList.findIdx? (fun d => decide (d = c))

/-- The value of a decimal digit. -/
def decDigit : Char → Option Nat := placeIn "0123456789"

/-- The value of a hexadecimal digit; the two rows are the two cases (notes/assumptions/17.md). -/
def hexDigit (c : Char) : Option Nat :=
  match placeIn "0123456789ABCDEF" c with
  | some v => some v
  | none => placeIn "0123456789abcdef" c

/-- A non-empty run of digits in a base, from the value read so far. -/
def digitsFrom (base : Nat) (digit : Char → Option Nat) : Nat → List Char → Option Nat
  | acc, [] => some acc
  | acc, c :: rest =>
    match digit c with
    | some d => digitsFrom base digit (acc * base + d) rest
    | none => none

/-- A decimal or `0x` hexadecimal unsigned integer (R97). -/
def parseNat (cs : List Char) : Option Nat :=
  match cs with
  | [] => none
  | '0' :: 'x' :: c :: rest => digitsFrom 16 hexDigit 0 (c :: rest)
  | c :: rest => digitsFrom 10 decDigit 0 (c :: rest)

/-- A value operand: below `2^24` (R97). -/
def parseValue (cs : List Char) : Option (BitVec 24) :=
  match parseNat cs with
  | some v => if v < 2 ^ 24 then some (BitVec.ofNat 24 v) else none
  | none => none

/-- The names of the registers in the order of their numbers (10_state.md R21). -/
def registerNames : List (List Char) :=
  ["CTRL".toList, "SAMPLE_RATE".toList, "BLOCK_SIZE".toList, "CAP".toList, "DLEN".toList, "FEEDBACK".toList,
    "MIX".toList, "VOLUME".toList, "STATUS".toList, "CURSOR".toList, "FAULT_INFO".toList, "FAULT_CMD".toList,
    "ID".toList]

/-- A register operand: its name or its number (R97). -/
def parseRegister (cs : List Char) : Option RegNum :=
  match registerNames.findIdx? (fun n => decide (n = cs)) with
  | some r => some (BitVec.ofNat 4 r)
  | none =>
    match parseNat cs with
    | some r => if r < 16 then some (BitVec.ofNat 4 r) else none
    | none => none

/-- The channel operand of `PROC`, 0 or 1 (R97). -/
def parseChannel (cs : List Char) : Option (BitVec 1) :=
  match parseNat cs with
  | some c => if c < 2 then some (BitVec.ofNat 1 c) else none
  | none => none

/-- The effect kind's name, as its number (R98, 10_state.md R22). -/
def parseKind (cs : List Char) : Option Nat :=
  ["distortion".toList, "delay".toList, "reverb".toList, "passthrough_stereo".toList].findIdx?
    (fun n => decide (n = cs))

/-- A signed decimal sample (R97). -/
def parseSample (cs : List Char) : Option Sample :=
  match cs with
  | '-' :: rest =>
    match digitsFrom 10 decDigit 0 rest with
    | some v => if rest ≠ [] ∧ v ≤ 32768 then some (BitVec.ofInt 16 (-(v : Int))) else none
    | none => none
  | _ =>
    match digitsFrom 10 decDigit 0 cs with
    | some v => if cs ≠ [] ∧ v ≤ 32767 then some (BitVec.ofNat 16 v) else none
    | none => none

/-- A 32-bit response word. -/
def parseWord (cs : List Char) : Option CmdWord :=
  match parseNat cs with
  | some v => if v < 2 ^ 32 then some (BitVec.ofNat 32 v) else none
  | none => none

/-- Every piece read, or none. -/
def parseAll {α : Type} (f : List Char → Option α) : List (List Char) → Option (List α)
  | [] => some []
  | c :: rest =>
    match f c, parseAll f rest with
    | some a, some as => some (a :: as)
    | _, _ => none

/-- `KIND k` and `KIND k, sat` (R98): `WRC CTRL, k` and `WRC CTRL, 4 + k`. -/
def kindCommand (k : Nat) (sat : Bool) : Instr := .wrc 0 (BitVec.ofNat 24 (if sat then 4 + k else k))

/-- The forms of R97 and the pseudo-commands of R98. -/
def parseCommand (mnemonic : List Char) (ops : List (List Char)) : Option Instr :=
  if mnemonic = "NOP".toList then (if ops = [] then some .nop else none)
  else if mnemonic = "INIT".toList then (if ops = [] then some .init else none)
  else if mnemonic = "END".toList then (if ops = [] then some .endStream else none)
  else if mnemonic = "RST".toList then (if ops = [] then some .rst else none)
  else if mnemonic = "WRC".toList then
    match ops with
    | [r, v] =>
      match parseRegister r, parseValue v with
      | some r, some v => some (.wrc r v)
      | _, _ => none
    | _ => none
  else if mnemonic = "RDR".toList then
    match ops with
    | [r] => (parseRegister r).map .rdr
    | _ => none
  else if mnemonic = "OPEN".toList then
    match ops with
    | [v] => (parseValue v).map .openStream
    | _ => none
  else if mnemonic = "PROC".toList then
    match ops with
    | [c, n] =>
      match parseChannel c, parseValue n with
      | some c, some n => some (.proc c n)
      | _, _ => none
    | _ => none
  else if mnemonic = "PROCM".toList then
    match ops with
    | [n] => (parseValue n).map (.proc 0)
    | _ => none
  else if mnemonic = "PROCS".toList then
    match ops with
    | [n] => (parseValue n).map (.proc 1)
    | _ => none
  else if mnemonic = "KIND".toList then
    match ops with
    | [k] => (parseKind k).map (fun k => kindCommand k false)
    | [k, m] => if m = "sat".toList then (parseKind k).map (fun k => kindCommand k true) else none
    | _ => none
  else none

/-- One line of a listing (R97); `none` for a line that is not in the notation. -/
def parseLine (cs : List Char) : Option AsmLine :=
  let body := trim (stripComment cs)
  let head := body.takeWhile (fun c => !isBlank c)
  let rest := splitCommas (body.dropWhile (fun c => !isBlank c))
  if body = [] then some .blank
  else if head = "IN:".toList then (parseAll parseSample rest).map .input
  else if head = "OUT:".toList then (parseAll parseSample rest).map .output
  else if head = "RSP:".toList then (parseAll parseWord rest).map .response
  else (parseCommand head rest).map .cmd

/-- The word of a command line, as the host appends it to `CMD_Q`; a line that is no command has none. -/
def assembleLine (cs : List Char) : Option CmdWord :=
  match parseLine cs with
  | some (.cmd i) => some (encode i)
  | some .blank => none
  | some (.input _) => none
  | some (.output _) => none
  | some (.response _) => none
  | none => none

end Sys2Proof.Machine
end

