-- ==== Sys2Proof/Tests/Slice0.lean ====
section
/-! SUPPORT. Tests. The expected values are from 95_test_vectors.md (its vector names are given), from the encodings of
30_encoding.md R81 and R83 written out bit by bit, or from the rule named. The theorems `witness_…` show a state and
operands that meet the hypotheses of the statement of that name in Certificates/Slice0/Obligations.lean. -/

namespace Sys2Proof.Tests

open Sys2Proof.Machine Sys2Proof.Claims

/-! ### Helpers -/

/-- The next state, if there is one. -/
def after : Host.Outcome State Fault Refusal → Option State
  | .next t => some t
  | .fault _ => none
  | .refused _ => none

/-- The reason a step has no next state. -/
def stop : Host.Outcome State Fault Refusal → Option Fault
  | .next _ => none
  | .fault f => some f
  | .refused _ => none

/-- The state after the step of one command word. -/
def one (w : CmdWord) (s : State) : Option State := after (step { s with cmdQ := [w] })

/-- `STATUS`, `FAULT_INFO` and `FAULT_CMD`, the three registers the vectors show. -/
def record (s : Option State) : Option (BitVec 24 × BitVec 24 × CmdWord) :=
  s.map fun t => (t.status, t.faultInfo, t.faultCmd)

/-- Signed samples as patterns. -/
def samples (xs : List Int) : List Sample := xs.map (BitVec.ofInt 16)

/-- The configuration "base" of 95_test_vectors.md 2.3, with `CMAX = 16` as its vectors 7 and 8 have it. -/
def base : State :=
  { State.reset with
    params := { cmax := 16, castRnd := .trunc, distTies := .even }
    cfg :=
      { ctrl := 1, sampleRate := 8000, blockSize := 2, cap := 8, dlen := 4, feedback := 0x4000, mix := 0x4000,
        volume := 0 } }

/-- `base` with some of its registers changed. -/
def cfgWith (f : ConfigRegs → ConfigRegs) : State := { base with cfg := f base.cfg }

/-- "base; INIT": READY, eight zeros. -/
def ready : State := { base with phase := .ready, buf := (List.range 8).map fun a => (a, 0) }

/-- "base; INIT; OPEN 8000", with three samples queued. -/
def streaming : State := { ready with phase := .stream, inQ := samples [100, -200, 300] }

/-- A stream under another effect kind, `BLOCK_SIZE = 8`, with the input of V-OE-1. -/
def other (ctrl volume : RegWord) : State :=
  { base with
    phase := .stream
    cfg := { base.cfg with ctrl := ctrl, blockSize := 8, volume := volume }
    inQ := samples [1, -1, 3, -3, 21845, 21846, -32768, 32767] }

/-- The delay line of 43_delayline.md R181 and V-DL-1: `D = 3`, `C = 4`, feedback and mix 0.5, with a given buffer and
cursor. -/
def line (ctrl feedback mix : RegWord) (xs buf : List Int) (cursor : RegWord) : State :=
  { base with
    phase := .stream
    cfg := { base.cfg with ctrl := ctrl, blockSize := 3, cap := 4, dlen := 3, feedback := feedback, mix := mix }
    inQ := samples xs
    buf := (samples buf).zipIdx.map fun e => (e.2, e.1)
    cursor := cursor }

/-- FAULT after V-CFG-5. -/
def faultState : State :=
  { cfgWith (fun c => { c with dlen := 1 }) with
    phase := .fault, faultKind := .configError, faultInfo := 0x000045, faultCmd := 0x30000000 }

/-! ### Well-formed terms -/

theorem test_wrc_of_a_read_only_register_is_refused :
    (Instr.wrc 8 0).wellFormed = false ∧ decodeTableWord 32 0x18000000 = none ∧ (Instr.wrc 7 0).wellFormed = true := by
  decide

theorem test_rdr_of_a_reserved_number_is_refused :
    (Instr.rdr 13).wellFormed = false ∧ decodeTableWord 32 0x2D000000 = none ∧ (Instr.rdr 12).wellFormed = true := by
  decide

/-! ### Decoding: words written out from the fields of R81 -/

theorem test_decode_nop : decode 0b0000_0000_000000000000000000000000 = .ok .nop := rfl
theorem test_decode_wrc : decode 0b0001_0111_111111111111111111111111 = .ok (.wrc 7 0xFFFFFF) := rfl
theorem test_decode_wrc_feedback : decode 0b0001_0101_000000000100000000000000 = .ok (.wrc 5 0x4000) := rfl
theorem test_decode_rdr : decode 0b0010_1100_000000000000000000000000 = .ok (.rdr 12) := rfl
theorem test_decode_init : decode 0b0011_0000_000000000000000000000000 = .ok .init := rfl
theorem test_decode_open : decode 0b0100_0000_000000000001111101000000 = .ok (.openStream 8000) := rfl
theorem test_decode_proc_mono : decode 0b0101_0000_000000000000000000000010 = .ok (.proc 0 2) := rfl
theorem test_decode_proc_stereo : decode 0b0101_0001_000000000000000000000011 = .ok (.proc 1 3) := rfl
theorem test_decode_end : decode 0b0110_0000_000000000000000000000000 = .ok .endStream := rfl
theorem test_decode_rst : decode 0b1111_0000_000000000000000000000000 = .ok .rst := rfl
theorem test_decode_reserved7 : decode 0b0111_0000_000000000000000000000000 = .ok (.reserved7 0) := rfl
theorem test_decode_reserved8 : decode 0b1000_0000_000000000000000000000001 = .ok (.reserved8 1) := rfl
theorem test_decode_reserved9 : decode 0b1001_1111_000000000000000000000000 = .ok (.reserved9 0xF000000) := rfl
theorem test_decode_reservedA : decode 0b1010_0000_000000000000000000000000 = .ok (.reservedA 0) := rfl
theorem test_decode_reservedB : decode 0b1011_0000_000000000000000000000000 = .ok (.reservedB 0) := rfl
theorem test_decode_reservedC : decode 0b1100_0000_000000000000000000000000 = .ok (.reservedC 0) := rfl
theorem test_decode_reservedD : decode 0b1101_0000_000000000000000000000000 = .ok (.reservedD 0) := rfl
theorem test_decode_reservedE : decode 0b1110_0001_001000110100010101100111 = .ok (.reservedE 0x1234567) := rfl

/-- V-ENC-2, the illegal verdicts, with the order of the two checks of `RDR`. -/
theorem test_decode_verdicts :
    decode 0x00000001 = .error .reservedField ∧ decode 0x01000000 = .error .reservedField ∧
    decode 0x18000001 = .error .badRegister ∧ decode 0x2D000000 = .error .badRegister ∧
    decode 0x2D000001 = .error .reservedField ∧ decode 0x30000001 = .error .reservedField ∧
    decode 0x41001F40 = .error .reservedField ∧ decode 0x52000001 = .error .reservedField ∧
    decode 0x5FFFFFFF = .error .reservedField ∧ decode 0xF0000001 = .error .reservedField :=
  ⟨rfl, rfl, rfl, rfl, rfl, rfl, rfl, rfl, rfl, rfl⟩

/-- V-ENC-1. -/
theorem test_encode :
    encode (.wrc 1 44100) = 0x1100AC44 ∧ encode (.wrc 7 0x10000) = 0x17010000 ∧ encode (.rdr 11) = 0x2B000000 ∧
    encode (.openStream 8000) = 0x40001F40 ∧ encode (.proc 1 2) = 0x51000002 ∧ encode .rst = 0xF0000000 := by
  decide

/-- The first instruction after reset, from a table word. -/
theorem test_fetch_word : record (after (step (State.reset.withFetchWord 32 0x70000000))) =
    some (0x000054, 0x000001, 0x70000000) := by decide

/-! ### Arithmetic -/

/-- V-AR-1. -/
theorem test_quant :
    ([32767, 32768, -1, -32768, -32769, -65535].map (quant .trunc) = [0, 1, 0, -1, -1, -1]) ∧
    [-1, -32769].map (quant .floor) = [-1, -2] := by decide

/-- V-AR-2. -/
theorem test_rne :
    ([16384, 49152, 81920, -16384, -49152, 16385, 16383].map (rne .even) = [0, 2, 2, 0, -2, 1, 0]) ∧
    [16384, -16384, 81920].map (rne .away) = [1, -1, 3] := by decide

/-- V-AR-3. -/
theorem test_casts :
    ([32768, 40000, 98303, -32769, -40000].map wrap16 = [-32768, -25536, 32767, 32767, 25536]) ∧
    [40000, -40000, 123].map sat16 = [32767, -32768, 123] := by decide

/-- V-AR-5: the sum is formed before the fraction is removed. -/
theorem test_update_sums_first : update Params.default base.cfg (-1) 1 = 0 := by decide

/-! ### Configuration and system commands -/

/-- V-CFG-1 to V-CFG-7, V-CFG-9, V-CFG-11: the first failing check. -/
theorem test_init_checks :
    record (one 0x30000000 State.reset) = some (0x000014, 0x000011, 0x30000000) ∧
    record (one 0x30000000 (cfgWith fun c => { c with blockSize := 0 })) = some (0x000014, 0x000022, 0x30000000) ∧
    record (one 0x30000000 (cfgWith fun c => { c with ctrl := 9 })) = some (0x000014, 0x000003, 0x30000000) ∧
    record (one 0x30000000 (cfgWith fun c => { c with dlen := 9 })) = some (0x000014, 0x000044, 0x30000000) ∧
    record (one 0x30000000 (cfgWith fun c => { c with dlen := 1 })) = some (0x000014, 0x000045, 0x30000000) ∧
    record (one 0x30000000 (cfgWith fun c => { c with dlen := 10, cap := 5, blockSize := 20 })) =
      some (0x000014, 0x000044, 0x30000000) ∧
    record (one 0x30000000 (cfgWith fun c => { c with cap := 17 })) = some (0x000014, 0x000036, 0x30000000) ∧
    record (one 0x30000000 (cfgWith fun c => { c with feedback := 0x8001 })) =
      some (0x000014, 0x000057, 0x30000000) ∧
    record (one 0x30000000 (cfgWith fun c => { c with mix := 0x8001 })) = some (0x000014, 0x000068, 0x30000000) := by
  decide

/-- V-CFG-8, V-CFG-10, V-CFG-12, V-CFG-13: construction at the boundaries, and of another kind. -/
theorem test_init_succeeds :
    record (one 0x30000000 (cfgWith fun c => { c with cap := 16 })) = some (0x000001, 0, 0) ∧
    record (one 0x30000000 (cfgWith fun c => { c with feedback := 0x8000 })) = some (0x000001, 0, 0) ∧
    record (one 0x30000000 (cfgWith fun c => { c with ctrl := 0, feedback := 0xFFFFFF, dlen := 0 })) =
      some (0x000001, 0, 0) ∧
    (one 0x30000000 base).map (fun t => (t.buf, t.cursor)) =
      some ([(0, 0), (1, 0), (2, 0), (3, 0), (4, 0), (5, 0), (6, 0), (7, 0)], 0) := by decide

/-- V-CFG-14 and V-CFG-15. -/
theorem test_frozen_configuration :
    record (one 0x30000000 ready) = some (0x000054, 0x000014, 0x30000000) ∧
    record (one 0x14000005 ready) = some (0x000054, 0x000014, 0x14000005) ∧
    (one 0x14000005 ready).map (·.cfg.dlen) = some 4 := by decide

/-- V-CFG-17: `WRC` overwrites, and is stored without a check (R91). -/
theorem test_wrc :
    (one 0x14000009 base).map (·.cfg.dlen) = some 9 ∧ (one 0x1600FFFF base).map (·.cfg.mix) = some 0xFFFF := by decide

/-- V-CFG-16, and a read of the other widths. -/
theorem test_rdr :
    (one 0x2C000000 State.reset).map (·.rspT) = some [0x01444C46] ∧
    (one 0x2B000000 faultState).map (·.rspT) = some [0x30000000] := by decide

/-- V-CFG-18 and V-F-3. -/
theorem test_rst :
    record (one 0xF0000000 faultState) = some (0, 0, 0) ∧ (one 0xF0000000 base).map (·.cfg.dlen) = some 0 := by decide

/-- `RST` empties `IN_Q` and leaves `BUF` and the rest of `CMD_Q` (10_state.md R46). -/
theorem test_rst_queues :
    (after (step { streaming with cmdQ := [0xF0000000, 0] })).map (fun t => (t.inQ, t.cmdQ, t.buf)) =
      some ([], [0], streaming.buf) := by decide

theorem test_nop : one 0x00000000 faultState = some faultState := by decide

/-- V-F-1: FAULT drops and keeps the first record. -/
theorem test_fault_drops :
    one 0x70000000 faultState = some faultState ∧ one 0x40001F40 faultState = some faultState ∧
    one 0x14000004 faultState = some faultState := by decide

/-- The sub-causes of V-ENC-2 in phase CONFIG. -/
theorem test_illegal_words :
    record (one 0xE1234567 base) = some (0x000054, 0x000001, 0xE1234567) ∧
    record (one 0x5FFFFFFF base) = some (0x000054, 0x000002, 0x5FFFFFFF) ∧
    record (one 0x2D000000 base) = some (0x000054, 0x000003, 0x2D000000) := by decide

/-! ### Stream commands -/

/-- V-ST-1 and V-ST-2. -/
theorem test_open :
    record (one 0x40001F40 ready) = some (0x000002, 0, 0) ∧
    record (one 0x40001F41 ready) = some (0x000024, 0x01F411, 0x40001F41) := by decide

/-- V-ST-3, V-ST-4, V-ST-8, V-ST-9. -/
theorem test_wrong_phase :
    record (one 0x40001F40 base) = some (0x000054, 0x000004, 0x40001F40) ∧
    record (one 0x50000001 ready) = some (0x000054, 0x000014, 0x50000001) ∧
    record (one 0x50000000 { ready with phase := .done }) = some (0x000054, 0x000034, 0x50000000) ∧
    record (one 0x40001F40 streaming) = some (0x000054, 0x000024, 0x40001F40) := by decide

/-- V-ST-5, V-ST-6 and V-F-2. -/
theorem test_proc_checks :
    record (one 0x50000003 streaming) = some (0x000054, 0x000035, 0x50000003) ∧
    record (one 0x51000003 streaming) = some (0x000034, 0x000011, 0x51000003) ∧
    (one 0x50000003 streaming).map (fun t => (t.inQ, t.outT, t.buf, t.cursor)) =
      some (streaming.inQ, [], streaming.buf, 0) := by decide

/-- V-ST-7 and V-ST-10. -/
theorem test_proc_hold :
    record (one 0x50000000 streaming) = some (0x000002, 0, 0) ∧
    stop (step { streaming with cmdQ := [0x50000002], inQ := [7] }) = some .held ∧
    stop (step streaming) = some .idle := by decide

/-- P1: `END` sets DONE and leaves what is queued (R158). -/
theorem test_end : (one 0x60000000 streaming).map (fun t => (t.status, t.inQ)) = some (0x000003, streaming.inQ) := by
  decide

/-! ### Effects -/

/-- V-DL-2 and V-DL-3, block 2: the stored sum wraps or saturates; the output uses the old word. -/
theorem test_delay_overflow :
    (one 0x50000002 (line 1 0x8000 0x8000 [10000, -10000] [30000, -30000, 0] 0)).map
        (fun t => (t.outT, t.buf.map (·.2))) = some (samples [30000, -30000], samples [-25536, 25536, 0]) ∧
    (one 0x50000002 (line 5 0x8000 0x8000 [10000, -10000] [30000, -30000, 0] 0)).map
        (fun t => t.buf.map (·.2)) = some (samples [32767, -32768, 0]) := by decide

/-- P2, second block: it straddles the wrap point, and the headroom word stays. -/
theorem test_delay_straddles :
    (one 0x50000002 (line 1 0x4000 0x8000 [0, 0] [-1001, 0, 0, 9] 2)).map
      (fun t => (t.outT, t.buf.map (·.2), t.cursor, t.inQ)) =
      some (samples [0, -1001], samples [-500, 0, 0, 9], 1, []) := by decide

/-- V-OE-1 to V-OE-4, wrap mode: the input in order, ties to even, the largest volume. -/
theorem test_distortion :
    (one 0x50000008 (other 0 0x8000)).map (·.outT) = some (other 0 0).inQ ∧
    (one 0x50000008 (other 0 0xC000)).map (·.outT) =
      some (samples [2, -2, 4, -4, -32768, -32767, 16384, -16386]) ∧
    (one 0x50000008 (other 0 0x4000)).map (·.outT) = some (samples [0, 0, 2, -2, 10922, 10923, -16384, 16384]) ∧
    (one 0x50000008 (other 0 0xFFFFFF)).map (·.outT) =
      some (samples [512, -512, 1536, -1536, -22017, -21505, 1, -513]) := by decide

/-- V-OE-5. -/
theorem test_reverb :
    record (one 0x51000063 (other 2 0)) = some (0x000044, 0x000021, 0x51000063) ∧
    record (one 0x50000001 (other 2 0)) = some (0x000034, 0x000022, 0x50000001) := by decide

/-- V-OE-6. -/
theorem test_passthrough :
    (one 0x50000003 { other 3 0 with inQ := samples [5, -7, 32767] }).map (·.outT) =
      some (samples [5, 5, -7, -7, 32767, 32767]) ∧
    record (one 0x51000001 (other 3 0)) = some (0x000034, 0x000031, 0x51000001) := by decide

/-! ### The assembler notation (R97, R98) -/

theorem test_assemble :
    assembleLine "WRC DLEN, 4            ; 0x14000004".toList = some 0x14000004 ∧
    assembleLine "WRC VOLUME, 0xC0de".toList = some 0x1700C0DE ∧
    assembleLine "PROCS 256".toList = some 0x51000100 ∧ assembleLine "KIND delay, sat".toList = some 0x10000005 ∧
    assembleLine "OPEN 16777216".toList = none := by decide

theorem test_listing_samples : parseLine "IN: -32768, 32767".toList = some (.input [0x8000, 0x7FFF]) := by decide

/-! ### Witnesses -/

/-- The line of R181 with zeros and cursor 0; with its cursor at the last word; dry; pure; and with an impulse. -/
def fresh : State := line 1 0x4000 0x4000 [100, -200, 300, 400] [0, 0, 0, 0] 0
def lastWord : State := line 5 0x8000 0x8000 [100, -200, 300, 400] [7, -8, 9, 0] 2
def dry : State := line 1 0x4000 0 [100, -200, 300, 400] [7, -8, 9, 0] 2
def pureLine : State := line 1 0 0x8000 [100, -200, 300, 400] [0, 0, 0, 0] 0
def impulse : State := line 1 0x4000 0x8000 [-1001, 0, 0, 0] [0, 0, 0, 0] 0

theorem fresh_ready : DelayReady fresh :=
  ⟨by decide, by decide, by decide, by decide, by decide, by decide, by decide, by decide⟩
theorem lastWord_ready : DelayReady lastWord :=
  ⟨by decide, by decide, by decide, by decide, by decide, by decide, by decide, by decide⟩
theorem dry_ready : DelayReady dry :=
  ⟨by decide, by decide, by decide, by decide, by decide, by decide, by decide, by decide⟩
theorem pureLine_ready : DelayReady pureLine :=
  ⟨by decide, by decide, by decide, by decide, by decide, by decide, by decide, by decide⟩
theorem impulse_ready : DelayReady impulse :=
  ⟨by decide, by decide, by decide, by decide, by decide, by decide, by decide, by decide⟩

theorem streaming_inv : StateInv streaming where
  paramsOk := by decide
  bufWf := by decide
  bufInRange := by decide
  faultIff := by decide
  noRecord := by decide
  cursorZero := by decide
  constructed := by decide
  delayReady := fun _ _ => ⟨by decide, by decide, by decide, by decide, by decide, by decide, by decide, by decide⟩

theorem faultState_inv : StateInv faultState where
  paramsOk := by decide
  bufWf := by decide
  bufInRange := by decide
  faultIff := by decide
  noRecord := by decide
  cursorZero := by decide
  constructed := by decide
  delayReady := fun h => absurd h (by decide)

/-- `streaming` with one command at the head, which keeps the invariant. -/
theorem streaming_cmd_inv (w : CmdWord) : StateInv { streaming with cmdQ := [w] } :=
  let h := streaming_inv
  ⟨h.paramsOk, h.bufWf, h.bufInRange, h.faultIff, h.noRecord, h.cursorZero, h.constructed, fun a b =>
    let d := h.delayReady a b
    ⟨d.1, d.2, d.3, d.4, d.5, d.6, d.7, d.8⟩⟩

/-! #### Encoding and the step -/

theorem witness_DecodeOfEncodeIsTheInstruction :
    (Instr.wrc 7 0xFFFFFF).wellFormed = true ∧ (Instr.rdr 12).wellFormed = true ∧
    (Instr.proc 1 0xFFFFFF).wellFormed = true ∧ (Instr.reservedE 0xFFFFFFF).wellFormed = true := by decide

theorem witness_EncodeOfDecodeIsTheWord :
    decode 0x5100FFFF = .ok (.proc 1 0xFFFF) ∧ decode 0x2C000000 = .ok (.rdr 12) := ⟨rfl, rfl⟩

theorem witness_OpcodeMapByMaskAndMatch :
    (0x17FFFFFF : CmdWord) &&& 0xF0000000 = 0x10000000 ∧ ((0x17FFFFFF : CmdWord).extractLsb' 24 4).toNat ≤ 7 ∧
    (0x2C000000 : CmdWord) &&& 0xF0FFFFFF = 0x20000000 ∧ (0x40FFFFFF : CmdWord) &&& 0xFF000000 = 0x40000000 ∧
    (0x51FFFFFF : CmdWord) &&& 0xFE000000 = 0x50000000 := by decide

theorem witness_StepRunsTheDecodedCommand :
    { streaming with cmdQ := [0x50000002, 0x60000000] }.cmdQ = 0x50000002 :: [0x60000000] ∧
    decode 0x50000002 = .ok (.proc 0 2) := ⟨rfl, rfl⟩

theorem witness_IllegalWordRaisesOrIsDropped :
    { streaming with cmdQ := [0x00000001] }.cmdQ = 0x00000001 :: [] ∧ decode 0x00000001 = .error .reservedField ∧
    { faultState with cmdQ := [0x18000000] }.cmdQ = 0x18000000 :: [] ∧ decode 0x18000000 = .error .badRegister :=
  ⟨rfl, rfl, rfl, rfl⟩

theorem witness_EveryStepRemovesOneCommandWord :
    ∃ t, step { streaming with cmdQ := [0x50000002, 0x60000000] } = .next t ∧ t.cmdQ = [0x60000000] := ⟨_, rfl, rfl⟩

/-- Both sides of the equivalence: a step with just enough samples, a hold with one too few, and an empty queue. -/
theorem witness_EngineHasAStepUnlessIdleOrHeld :
    StateInv { streaming with cmdQ := [0x50000002] } ∧
    after (step { streaming with cmdQ := [0x50000002], inQ := [1, 2] }) ≠ none ∧
    stop (step { streaming with cmdQ := [0x50000002], inQ := [1] }) = some .held ∧
    stop (step streaming) = some .idle := ⟨streaming_cmd_inv _, by decide, by decide, by decide⟩

/-! #### Phase legality -/

theorem witness_MisplacedCommandRaisesWrongPhase :
    ready.phase ≠ .fault ∧ ready.phase ≠ .config ∧ (7 : RegNum).toNat ≤ 7 ∧ ready.phase ≠ .stream ∧
    streaming.phase ≠ .ready := by decide

theorem witness_FaultPhaseDropsOtherCommands :
    faultState.phase = .fault ∧ Instr.proc 0 1 ≠ .rst ∧ (∀ r, Instr.rdr 13 = .rdr r → 12 < r.toNat) :=
  ⟨rfl, by decide, fun r h => by cases h; decide⟩

theorem witness_FaultRecordIsKeptUntilRst :
    ∃ t, step { faultState with cmdQ := [0x50000001] } = .next t ∧ faultState.phase = .fault ∧
      { faultState with cmdQ := [0x50000001] }.cmdQ.head? ≠ some 0xF0000000 := ⟨_, rfl, rfl, by decide⟩

/-- Each arrow of the graph is taken: INIT, OPEN, END, RST, a fault entry, and a step that stays. -/
theorem witness_PhaseChangesOnlyAlongTheGraph :
    (one 0x30000000 base).map (·.phase) = some .ready ∧ (one 0x40001F40 ready).map (·.phase) = some .stream ∧
    (one 0x60000000 streaming).map (·.phase) = some .done ∧ (one 0xF0000000 streaming).map (·.phase) = some .config ∧
    (one 0x70000000 base).map (·.phase) = some .fault ∧ (one 0x50000001 streaming).map (·.phase) = some .stream := by
  decide

/-! #### Configuration and system commands -/

theorem witness_WrcWritesExactlyItsRegister : base.phase = .config ∧ (7 : RegNum).toNat ≤ 7 := by decide

theorem witness_NopOnlyLeavesTheQueue :
    (0x00000001 : CmdWord).extractLsb' 28 4 = 0 ∧ (0x00000001 : CmdWord) ≠ 0 := by decide

theorem witness_RdrAppendsTheRegister : (12 : RegNum).toNat ≤ 12 := by decide

theorem witness_BadRegisterNumbersRaise : 7 < (8 : RegNum).toNat ∧ 12 < (13 : RegNum).toNat := by decide

theorem witness_StatusRegisterLayout : StateInv faultState ∧ StateInv streaming := ⟨faultState_inv, streaming_inv⟩

/-- At the limits of the checks: `CAP = CMAX`, `DLEN = CAP`, `BLOCK_SIZE = DLEN`, both gains 1.0. -/
theorem witness_InitConstructsTheDelayLine :
    let s := cfgWith fun c => { c with cap := 16, dlen := 16, blockSize := 16, feedback := 0x8000, mix := 0x8000 }
    s.phase = .config ∧ s.cfg.kind = .delay ∧ s.cfg.sampleRate ≠ 0 ∧ s.cfg.blockSize ≠ 0 ∧ s.cfg.ctrl.toNat / 8 = 0 ∧
    s.cfg.dlen.toNat ≤ s.cfg.cap.toNat ∧ s.cfg.blockSize.toNat ≤ s.cfg.dlen.toNat ∧ s.cfg.cap.toNat ≤ s.params.cmax ∧
    s.cfg.feedback.toNat ≤ 32768 ∧ s.cfg.mix.toNat ≤ 32768 := by decide

theorem witness_InitConstructsTheOtherKinds :
    let s := cfgWith fun c => { c with ctrl := 7, dlen := 0, feedback := 0xFFFFFF }
    s.phase = .config ∧ s.cfg.kind ≠ .delay ∧ s.cfg.sampleRate ≠ 0 ∧ s.cfg.blockSize ≠ 0 ∧ s.cfg.ctrl.toNat / 8 = 0 := by
  decide

/-- The branches are met by the states of `test_init_checks` and `test_init_succeeds`. -/
theorem witness_InitReportsTheFirstFailingCheck : base.phase = .config ∧ State.reset.phase = .config := by decide

/-! #### Stream commands -/

theorem witness_OpenWithTheConfiguredRateStartsTheStream : ready.phase = .ready ∧ 8000 = ready.cfg.sampleRate := by
  decide

theorem witness_OpenWithAnotherRateFaults : ready.phase = .ready ∧ 0xFFFFFF ≠ ready.cfg.sampleRate := by decide

theorem witness_ProcChecksShapeThenReverbThenLength :
    streaming.phase = .stream ∧ streaming.cfg.kind ≠ .reverb ∧ streaming.cfg.blockSize.toNat < (3 : BitVec 24).toNat ∧
    (other 2 0).phase = .stream ∧ (other 2 0).cfg.kind = .reverb := by decide

theorem witness_ProcIsHeldExactlyWhileSamplesAreMissing :
    stop (exec (.proc 0 2) { streaming with inQ := [1] }) = some .held ∧
    stop (exec (.proc 0 2) { streaming with inQ := [1, 2] }) = none := by decide

theorem witness_ProcDistortionMapsTheBlock :
    (other 0 0xC000).phase = .stream ∧ (other 0 0xC000).cfg.kind = .distortion ∧
    (8 : BitVec 24).toNat ≤ (other 0 0xC000).cfg.blockSize.toNat ∧
    (8 : BitVec 24).toNat ≤ (other 0 0xC000).inQ.length := by decide

theorem witness_ProcPassthroughDuplicatesTheBlock :
    (other 3 0).phase = .stream ∧ (other 3 0).cfg.kind = .passthroughStereo ∧
    (8 : BitVec 24).toNat ≤ (other 3 0).cfg.blockSize.toNat ∧ (8 : BitVec 24).toNat ≤ (other 3 0).inQ.length := by
  decide

/-- A block as long as the whole delay line, from its last word. -/
theorem witness_ProcDelayBlockForm :
    lastWord.phase = .stream ∧ lastWord.cfg.kind = .delay ∧ DelayReady lastWord ∧
    (3 : BitVec 24).toNat ≤ lastWord.cfg.blockSize.toNat ∧ (3 : BitVec 24).toNat ≤ lastWord.inQ.length :=
  ⟨rfl, rfl, lastWord_ready, by decide, by decide⟩

theorem witness_EmptyBlockChangesNothing :
    StateInv streaming ∧ streaming.phase = .stream ∧ streaming.cfg.kind ≠ .reverb := ⟨streaming_inv, rfl, by decide⟩

theorem witness_DryPassthrough :
    dry.phase = .stream ∧ dry.cfg.kind = .delay ∧ DelayReady dry ∧ dry.cfg.mix = 0 ∧
    (3 : BitVec 24).toNat ≤ dry.cfg.blockSize.toNat ∧ (3 : BitVec 24).toNat ≤ dry.inQ.length :=
  ⟨rfl, rfl, dry_ready, rfl, by decide, by decide⟩

theorem witness_EndClosesTheStream : streaming.phase = .stream := rfl

theorem witness_ProcProducesItsWholeBlockOrFaults :
    streaming.phase = .stream ∧ (∃ t, exec (.proc 0 2) streaming = .next t ∧ t.phase = .stream) ∧
    ∃ t, exec (.proc 1 2) streaming = .next t ∧ t.phase = .fault := ⟨rfl, ⟨_, rfl, rfl⟩, ⟨_, rfl, rfl⟩⟩

/-! #### Rules of the whole machine and invariants -/

theorem witness_TracesAreAppendOnlyAndNeverRead :
    ∃ t, step { streaming with cmdQ := [0x50000002] } = .next t ∧ t.outT ≠ [] := ⟨_, rfl, by decide⟩

theorem witness_FaultsArePrecise :
    ∃ t, step { streaming with cmdQ := [0x50000003] } = .next t ∧ streaming.phase ≠ .fault ∧ t.phase = .fault :=
  ⟨_, rfl, by decide, rfl⟩

theorem witness_ConfigurationIsFrozen :
    ∃ t, step { ready with cmdQ := [0x14000005] } = .next t ∧ ready.phase ≠ .config ∧
      ({ ready with cmdQ := [0x14000005] } : State).cmdQ.head? ≠ some 0xF0000000 := ⟨_, rfl, by decide, by decide⟩

theorem witness_OnlyInitAndProcWriteTheBuffer :
    (∃ t, step { base with cmdQ := [0x30000000] } = .next t ∧ t.buf.read 7 ≠ base.buf.read 7) ∧
    ∃ t, step { streaming with cmdQ := [0x50000002] } = .next t ∧ t.buf.read 1 ≠ streaming.buf.read 1 :=
  ⟨⟨_, rfl, by decide⟩, ⟨_, rfl, by decide⟩⟩

theorem witness_StepIgnoresLaterQueueWords :
    ∃ t, step { streaming with cmdQ := [0x50000002] } = .next t ∧
      ({ streaming with cmdQ := [0x50000002] } : State).cmdQ.head? ≠ some 0xF0000000 := ⟨_, rfl, by decide⟩

/-- Two schedules of one `PROC`: the samples first, or the command first and a hold in between. -/
def samplesFirst : List Event :=
  [.host (.appendSample 5), .host (.appendSample 6), .host (.appendCmd 0x50000002), .engine]
def commandFirst : List Event :=
  [.host (.appendCmd 0x50000002), .host (.appendSample 5), .engine, .host (.appendSample 6), .engine]

theorem witness_SchedulesOfOneRunAgree :
    let s := { streaming with inQ := [] }
    appendedCmds samplesFirst = appendedCmds commandFirst ∧
    appendedSamples samplesFirst = appendedSamples commandFirst ∧
    Event.host .hardwareReset ∉ samplesFirst ∧ Event.host .hardwareReset ∉ commandFirst ∧
    (0xF0000000 : CmdWord) ∉ s.cmdQ ∧ (0xF0000000 : CmdWord) ∉ appendedCmds samplesFirst ∧
    (sysRun samplesFirst s).cmdQ = [] ∧ (sysRun commandFirst s).cmdQ = [] := by decide

theorem witness_StepKeepsInv :
    StateInv { streaming with cmdQ := [0x50000002] } ∧
    ∃ t, step { streaming with cmdQ := [0x50000002] } = .next t ∧ t.cursor = 2 := ⟨streaming_cmd_inv _, ⟨_, rfl, rfl⟩⟩

theorem witness_HostActionsKeepInv : StateInv faultState := faultState_inv

theorem witness_InvRulesOutEveryOtherStop :
    StateInv { streaming with cmdQ := [0x50000002] } ∧ StateInv streaming ∧ step streaming = .fault .idle :=
  ⟨streaming_cmd_inv _, streaming_inv, rfl⟩

/-! #### Arithmetic -/

/-- The unique representative: `wrap16 40000` is the only sample value congruent to 40000. -/
theorem witness_Wrap16IsTheTwosComplementWrap :
    (-32768 : Int) ≤ -25536 ∧ (-25536 : Int) ≤ 32767 ∧ (-25536 - 40000 : Int) % 65536 = 0 := by decide

theorem witness_CastFollowsTheSatBit :
    base.cfg.ctrl.toNat / 4 % 2 = 0 ∧ (cfgWith fun c => { c with ctrl := 5 }).cfg.ctrl.toNat / 4 % 2 = 1 ∧
    (32767 : Int) < 32768 ∧ (-32769 : Int) < -32768 ∧ cast16 true 32768 = 32767 ∧ cast16 true (-32769) = -32768 := by
  decide

theorem witness_QuantRemovesTheFraction : (0 : Int) ≤ 0 ∧ (0 : Int) ≤ 65535 ∧ quant .trunc (-65535) = -1 := by decide

theorem witness_RneIsTheNearestInteger :
    (-16384 : Int) % 32768 = 16384 ∧ rne .even (-16384) = 0 ∧ rne .away (-16384) = -1 ∧
    (16383 : Int) % 32768 < 16384 ∧ 16384 < (16385 : Int) % 32768 := by decide

theorem witness_ArithmeticLaws :
    (cfgWith fun c => { c with mix := 0, feedback := 0, volume := 0 }).cfg.mix = 0 ∧
    (cfgWith fun c => { c with mix := 32768, feedback := 32768, volume := 32768 }).cfg.feedback = 32768 ∧
    (-32768 : Int) ≤ -32768 ∧ (32767 : Int) ≤ 32767 := by decide

theorem witness_BlendNeverOverflows :
    (cfgWith fun c => { c with mix := 32768 }).cfg.mix.toNat ≤ 32768 ∧ (-32768 : Int) ≤ 32767 := by decide

theorem witness_AccumulatorWidths :
    (cfgWith fun c => { c with mix := 32768 }).cfg.mix.toNat ≤ 32768 ∧
    (cfgWith fun c => { c with feedback := 32768 }).cfg.feedback.toNat ≤ 32768 ∧
    (cfgWith fun c => { c with feedback := 32768 }).cfg.feedback.toNat = 32768 := by decide

/-! #### The delay line as a stream -/

theorem fits {ns : List (BitVec 24)} {b : Nat} (h : (ns.all fun n => decide (n.toNat ≤ b)) = true) :
    ∀ n ∈ ns, n.toNat ≤ b := fun n hn => of_decide_eq_true (List.all_eq_true.1 h n hn)

/-- A block that straddles the wrap point, and one that ends at it. -/
theorem witness_TwoSpansGiveTheModuloAddresses :
    2 < 3 ∧ 3 ≤ 3 ∧ spanAddr 2 3 3 0 = 2 ∧ spanAddr 2 3 3 1 = 0 ∧ firstSpan 1 3 2 = 2 := by decide

theorem witness_DelayLineIsTheUnboundedRecurrence :
    fresh.phase = .stream ∧ fresh.cfg.kind = .delay ∧ DelayReady fresh ∧ fresh.cursor = 0 ∧
    (∀ a < fresh.cfg.dlen.toNat, fresh.buf.read a = some 0) ∧
    (∀ n ∈ ([2, 2] : List (BitVec 24)), n.toNat ≤ fresh.cfg.blockSize.toNat) ∧
    totalSamples [2, 2] ≤ fresh.inQ.length := ⟨rfl, rfl, fresh_ready, rfl, by decide, fits (by decide), by decide⟩

theorem witness_BlockCutDoesNotMatter :
    lastWord.phase = .stream ∧ lastWord.cfg.kind = .delay ∧ DelayReady lastWord ∧
    (∀ n ∈ ([2, 0, 2] : List (BitVec 24)), n.toNat ≤ lastWord.cfg.blockSize.toNat) ∧
    (∀ n ∈ ([3, 1] : List (BitVec 24)), n.toNat ≤ lastWord.cfg.blockSize.toNat) ∧
    totalSamples [2, 0, 2] = totalSamples [3, 1] ∧ totalSamples [2, 0, 2] ≤ lastWord.inQ.length :=
  ⟨rfl, rfl, lastWord_ready, fits (by decide), fits (by decide), by decide, by decide⟩

theorem witness_PureDelayReproducesTheInput :
    pureLine.phase = .stream ∧ pureLine.cfg.kind = .delay ∧ DelayReady pureLine ∧ pureLine.cursor = 0 ∧
    pureLine.cfg.mix = 32768 ∧
    pureLine.cfg.feedback = 0 ∧ (∀ a < pureLine.cfg.dlen.toNat, pureLine.buf.read a = some 0) ∧
    (∀ n ∈ ([3, 1] : List (BitVec 24)), n.toNat ≤ pureLine.cfg.blockSize.toNat) ∧
    totalSamples [3, 1] ≤ pureLine.inQ.length :=
  ⟨rfl, rfl, pureLine_ready, rfl, rfl, rfl, by decide, fits (by decide), by decide⟩

/-- The echoes of -1001 (P2). -/
def echo : Nat → Int
  | 0 => 0
  | 1 => -1001
  | j + 2 => cast16 impulse.cfg.sat (quant impulse.params.castRnd (echo (j + 1) * impulse.cfg.feedback.toNat))

theorem witness_EchoesDecayByTheFeedback :
    impulse.phase = .stream ∧ impulse.cfg.kind = .delay ∧ DelayReady impulse ∧ impulse.cursor = 0 ∧
    impulse.cfg.mix = 32768 ∧ (∀ a < impulse.cfg.dlen.toNat, impulse.buf.read a = some 0) ∧
    (∀ n ∈ ([3, 1] : List (BitVec 24)), n.toNat ≤ impulse.cfg.blockSize.toNat) ∧
    totalSamples [3, 1] ≤ impulse.inQ.length ∧ impulse.inQ[0]? = some (BitVec.ofInt 16 (-1001)) ∧
    (∀ k, 0 < k → k < totalSamples [3, 1] → impulse.inQ[k]? = some 0) ∧
    echo 1 = (BitVec.ofInt 16 (-1001)).toInt ∧
    (∀ j, 1 ≤ j → echo (j + 1) =
      cast16 impulse.cfg.sat (quant impulse.params.castRnd (echo j * impulse.cfg.feedback.toNat))) ∧
    echo 2 = -500 ∧ echo 3 = -250 := by
  refine ⟨rfl, rfl, impulse_ready, rfl, rfl, by decide, fits (by decide), by decide, by decide, ?_, by decide, ?_,
    by decide, by decide⟩
  · intro k h₁ h₂
    have h : k < 4 := h₂
    interval_cases k <;> rfl
  · intro j hj
    obtain ⟨j, rfl⟩ := Nat.exists_eq_add_of_le' hj
    rfl

end Sys2Proof.Tests
end

section
/-! The invariant of the machine: reset meets it, every step keeps it, and under it a step stops only idle or held. -/

namespace Sys2Proof.Machine

/-! ### The constructed delay line -/

/-- R47 speaks of the configuration, the parameters, the cursor and the buffer only. -/
theorem DelayReady.congr {s t : State} (h : DelayReady s) (hp : t.params = s.params) (hc : t.cfg = s.cfg)
    (hcur : t.cursor = s.cursor) (hb : t.buf = s.buf) : DelayReady t where
  blockSizePos := hc ▸ h.blockSizePos
  blockFits := hc ▸ h.blockFits
  delayFits := hc ▸ h.delayFits
  capFits := hc ▸ hp ▸ h.capFits
  cursorInLine := hc ▸ hcur ▸ h.cursorInLine
  feedbackLegal := hc ▸ h.feedbackLegal
  mixLegal := hc ▸ h.mixLegal
  bufDefined := hc ▸ hb ▸ h.bufDefined

theorem DelayReady.dlen_pos {s : State} (h : DelayReady s) : 0 < s.cfg.dlen.toNat :=
  Nat.lt_of_lt_of_le h.blockSizePos h.blockFits

/-- The cursor stays in the delay line (R175). -/
theorem nextCursor_lt (cur : RegWord) (n : Nat) {d : Nat} (hd : 0 < d) : (nextCursor cur n d).toNat < d := by
  have hmod : (cur.toNat + n) % d < d := Nat.mod_lt _ hd
  rw [nextCursor, BitVec.toNat_ofNat]
  exact Nat.lt_of_le_of_lt (Nat.mod_le _ _) hmod

theorem Memory.read_write_ne_none {m : Memory} {a : Nat} (b : Nat) (v : Sample) (h : m.read a ≠ none) :
    (m.write b v).read a ≠ none := by
  by_cases e : a = b
  · simp [e]
  · rwa [Memory.read_write_other m v e]

/-- The delay loop takes the value of no word away. -/
theorem delayLoop_read_ne_none {p : Params} {c : ConfigRegs} {cur d i : Nat} {xs ys : List Sample} {m m' : Memory}
    {a : Nat} (h : delayLoop p c cur d i xs m = .ok (ys, m')) (ha : m.read a ≠ none) : m'.read a ≠ none := by
  induction xs generalizing i ys m with
  | nil =>
    simp only [delayLoop_nil, Except.ok.injEq, Prod.mk.injEq] at h
    exact h.2 ▸ ha
  | cons x xs ih =>
    obtain ⟨wet, zs, -, -, hl, -⟩ := delayLoop_cons_ok.1 h
    exact ih hl (Memory.read_write_ne_none _ _ ha)

/-- A block of samples keeps R47 (R49). -/
theorem DelayReady.afterLoop {s : State} {xs ys : List Sample} {m : Memory} (h : DelayReady s) (n : Nat)
    (hl : delayLoop s.params s.cfg s.cursor.toNat s.cfg.dlen.toNat 0 xs s.buf = .ok (ys, m)) :
    DelayReady ((s.setBuf m).setCursor (nextCursor s.cursor n s.cfg.dlen.toNat)) where
  blockSizePos := h.blockSizePos
  blockFits := h.blockFits
  delayFits := h.delayFits
  capFits := h.capFits
  cursorInLine := nextCursor_lt _ _ h.dlen_pos
  feedbackLegal := h.feedbackLegal
  mixLegal := h.mixLegal
  bufDefined := fun a ha => delayLoop_read_ne_none hl (h.bufDefined a ha)

/-- Validation of a delay line and its zeroed buffer give R47. -/
theorem DelayReady.ofValidate {s : State} (hk : s.cfg.kind = .delay) (hv : validate s.params s.cfg = none) :
    DelayReady ((s.setBuf (initBuf s)).setCursor 0) := by
  obtain ⟨-, hblock, -, hdelay⟩ := validate_none hv
  obtain ⟨hdc, hbd, hcc, hf, hm⟩ := hdelay hk
  have hpos : 1 ≤ s.cfg.blockSize.toNat :=
    Nat.one_le_iff_ne_zero.2 fun e => hblock (BitVec.eq_of_toNat_eq (by simpa using e))
  refine ⟨hpos, hbd, hdc, hcc, Nat.lt_of_lt_of_le hpos hbd, hf, hm, fun a ha => ?_⟩
  have ha' : a < s.cfg.cap.toNat := ha
  simp [initBuf, hk, Memory.read_zeroBelow, ha']

/-! ### What keeps the invariant -/

theorem stateInv_reset : StateInv State.reset where
  paramsOk := by decide
  bufWf := Memory.wf_reset
  bufInRange := by simp
  faultIff := by simp
  noRecord := by simp
  cursorZero := by simp
  constructed := by simp
  delayReady := by simp

/-- The invariant does not speak of the queues and the traces. -/
theorem StateInv.withQueues {s : State} (h : StateInv s) (cs ws : List CmdWord) (us ys : List Sample) :
    StateInv { s with cmdQ := cs, inQ := us, outT := ys, rspT := ws } where
  paramsOk := h.paramsOk
  bufWf := h.bufWf
  bufInRange := h.bufInRange
  faultIff := h.faultIff
  noRecord := h.noRecord
  cursorZero := h.cursorZero
  constructed := h.constructed
  delayReady := fun hp hk => (h.delayReady hp hk).congr rfl rfl rfl rfl

theorem StateInv.popCmd {s : State} (h : StateInv s) : StateInv s.popCmd := h.withQueues _ _ _ _

theorem StateInv.popIn {s : State} (h : StateInv s) (k : Nat) : StateInv (s.popIn k) := h.withQueues _ _ _ _

theorem StateInv.pushOut {s : State} (h : StateInv s) (ys : List Sample) : StateInv (s.pushOut ys) :=
  h.withQueues _ _ _ _

theorem StateInv.pushRsp {s : State} (h : StateInv s) (w : CmdWord) : StateInv (s.pushRsp w) := h.withQueues _ _ _ _

/-- A fault entry keeps the invariant: it writes the record and the phase together (R222). -/
theorem StateInv.raiseFault {s : State} (h : StateInv s) (c : Cause) (info : BitVec 20) (w : CmdWord) :
    StateInv (s.raiseFault c info w) where
  paramsOk := h.paramsOk
  bufWf := h.bufWf
  bufInRange := h.bufInRange
  faultIff := by simp [c.kind_ne_none]
  noRecord := by simp
  cursorZero := fun hc => h.cursorZero (.inr (by simpa using hc))
  constructed := by simp
  delayReady := by simp

/-- Before construction the invariant asks nothing of the configuration registers. -/
theorem StateInv.setCfg {s : State} (h : StateInv s) (hp : s.phase = .config) (c : ConfigRegs) :
    StateInv (s.setCfg c) where
  paramsOk := h.paramsOk
  bufWf := h.bufWf
  bufInRange := h.bufInRange
  faultIff := h.faultIff
  noRecord := h.noRecord
  cursorZero := fun _ => h.cursorZero (.inl hp)
  constructed := by simp [hp]
  delayReady := by simp [hp]

theorem StateInv.softReset {s : State} (h : StateInv s) : StateInv s.softReset where
  paramsOk := h.paramsOk
  bufWf := h.bufWf
  bufInRange := h.bufInRange
  faultIff := by simp
  noRecord := by simp
  cursorZero := by simp
  constructed := by simp
  delayReady := by simp

/-- From READY or STREAM on, the next phases ask for no more than holds already. -/
theorem StateInv.setPhase {s : State} (h : StateInv s) (hs : s.phase = .ready ∨ s.phase = .stream) {p : Phase}
    (hp : p = .stream ∨ p = .done) : StateInv (s.setPhase p) := by
  have hsf : s.phase ≠ .fault := by rintro e; simp [e] at hs
  have hpf : p ≠ .fault ∧ p ≠ .config := by rcases hp with rfl | rfl <;> decide
  exact
    { paramsOk := h.paramsOk
      bufWf := h.bufWf
      bufInRange := h.bufInRange
      faultIff := by simpa [hpf.1, hsf] using h.faultIff
      noRecord := fun _ => h.noRecord hsf
      cursorZero := fun hc => h.cursorZero (.inr (by simpa [hpf.2] using hc))
      constructed := fun _ => h.constructed (hs.imp_right .inl)
      delayReady := fun _ hk => (h.delayReady hs hk).congr rfl rfl rfl rfl }

/-- The buffer a successful `INIT` leaves is canonical and inside `[0, CMAX)` (R37, R136). -/
theorem initBuf_wf_inRange {s : State} (h : StateInv s) (hv : validate s.params s.cfg = none) :
    (initBuf s).wf ∧ ∀ e ∈ initBuf s, e.1 < s.params.cmax := by
  unfold initBuf
  split
  · rename_i hk
    obtain ⟨-, -, hcap, -, -⟩ := (validate_none hv).2.2.2 hk
    refine ⟨Memory.wf_zeroBelow h.bufWf _, fun e he => ?_⟩
    rcases Memory.mem_zeroBelow he with hlt | he
    · exact Nat.lt_of_lt_of_le hlt hcap
    · exact h.bufInRange e he
  · exact ⟨h.bufWf, h.bufInRange⟩

/-- A successful `INIT` constructs what the invariant asks of READY (R134). -/
theorem StateInv.construct {s : State} (h : StateInv s) (hp : s.phase = .config)
    (hv : validate s.params s.cfg = none) :
    StateInv (((s.setBuf (initBuf s)).setCursor 0).setPhase .ready) := by
  obtain ⟨hwf, hrange⟩ := initBuf_wf_inRange h hv
  obtain ⟨hrate, hblock, hctrl, -⟩ := validate_none hv
  exact
    { paramsOk := h.paramsOk
      bufWf := hwf
      bufInRange := hrange
      faultIff := by simpa [hp] using h.faultIff
      noRecord := fun _ => h.noRecord (by simp [hp])
      cursorZero := fun _ => rfl
      constructed := fun _ => ⟨hrate, hblock, hctrl⟩
      delayReady := fun _ hk => (DelayReady.ofValidate (s := s) hk hv).congr rfl rfl rfl rfl }

theorem EffectKind.transform_eq_delay {k : EffectKind} (h : k.transform = some .delay) : k = .delay := by
  cases k <;> simp [EffectKind.transform] at h ⊢

/-- The transform of the configured kind keeps the invariant (R157). -/
theorem StateInv.afterTransform {s t : State} {tr : Transform} {x y : List Sample} (h : StateInv s)
    (hp : s.phase = .stream) (htr : s.cfg.kind.transform = some tr) (hr : runTransform tr x s = .ok (y, t)) :
    StateInv t := by
  rcases runTransform_ok hr with ⟨-, -, rfl⟩ | ⟨-, -, rfl⟩ | ⟨rfl, -, m, hl, rfl⟩
  · exact h
  · exact h
  · have hk : s.cfg.kind = .delay := EffectKind.transform_eq_delay htr
    exact
      { paramsOk := h.paramsOk
        bufWf := delayLoop_wf h.bufWf hl
        bufInRange := delayLoop_inRange hl h.bufInRange
        faultIff := h.faultIff
        noRecord := h.noRecord
        cursorZero := by simp [hp, hk]
        constructed := h.constructed
        delayReady := fun _ _ => (h.delayReady (.inr hp) hk).afterLoop _ hl }

/-- The own effect of every instruction keeps the invariant. -/
theorem StateInv.ownEffect {s t : State} {i : Instr} (h : StateInv s) (ho : OwnEffect s t i) : StateInv t := by
  cases i <;> simp only [OwnEffect] at ho
  case nop => exact ho ▸ h.popCmd
  case wrc =>
    obtain ⟨-, hp, rfl⟩ := ho
    exact h.popCmd.setCfg hp _
  case rdr =>
    obtain ⟨w, -, rfl⟩ := ho
    exact h.popCmd.pushRsp w
  case init =>
    obtain ⟨hp, hv, rfl⟩ := ho
    exact h.popCmd.construct hp hv
  case openStream =>
    obtain ⟨hp, -, rfl⟩ := ho
    exact h.popCmd.setPhase (.inl hp) (.inl rfl)
  case proc =>
    obtain ⟨tr, y, s', hp, hc, -, hr, rfl⟩ := ho
    obtain ⟨-, htr, -⟩ := procChecks_ok hc
    exact ((h.popCmd.popIn _).afterTransform hp htr hr).pushOut y
  case endStream =>
    obtain ⟨hp, rfl⟩ := ho
    exact h.popCmd.setPhase (.inr hp) (.inr rfl)
  case rst => exact ho ▸ h.popCmd.softReset

theorem step_stateInv {s t : State} (h : StateInv s) (hs : step s = .next t) : StateInv t := by
  obtain ⟨w, q, -, ⟨-, rfl⟩ | ⟨-, c, info, w', rfl, -⟩ | ⟨i, -, ho⟩⟩ := step_next_cases hs
  · exact h.popCmd
  · exact h.popCmd.raiseFault c info w'
  · exact h.ownEffect ho

/-! ### The stops -/

/-- A phase check stops only where its body does. -/
theorem inPhase_eq_fault {q : Phase} {w : CmdWord} {s : State} {body : State → Host.Outcome State Fault Refusal}
    {f : Fault} (h : inPhase q w s body = .fault f) : s.phase = q ∧ body s = .fault f := by
  rcases inPhase_cases q w s body with ⟨-, e⟩ | ⟨hq, -, e⟩ | ⟨-, -, e⟩ <;> rw [e] at h
  · cases h
  · exact ⟨hq, h⟩
  · cases h

/-- `PROC` stops when it is held, or where its transform does. -/
theorem execProc_eq_fault {ch : BitVec 1} {n : BitVec 24} {s : State} {f : Fault} (h : execProc ch n s = .fault f) :
    s.phase = .stream ∧ (f = .held ∨ ∃ tr, s.cfg.kind.transform = some tr ∧
      runTransform tr (s.inQ.take (blockWords ch n)) (s.popCmd.popIn (blockWords ch n)) = .error f) := by
  obtain ⟨hp, hb⟩ := inPhase_eq_fault h
  refine ⟨hp, ?_⟩
  split at hb
  · cases hb
  · rename_i tr hc
    split at hb
    · exact .inl (Host.Outcome.fault.inj hb).symm
    · split at hb
      · rename_i f' hr
        obtain rfl := Host.Outcome.fault.inj hb
        exact .inr ⟨tr, (procChecks_ok hc).2.1, hr⟩
      · cases hb

theorem execWrc_ne_fault (r : RegNum) (v : RegWord) (s : State) (f : Fault) : execWrc r v s ≠ .fault f := by
  unfold execWrc
  split
  · exact illegalWord_ne_fault _ _ _ _
  · intro h
    cases (inPhase_eq_fault h).2

theorem execRdr_ne_fault (r : RegNum) (s : State) (f : Fault) : execRdr r s ≠ .fault f := by
  unfold execRdr
  split
  · simp
  · exact illegalWord_ne_fault _ _ _ _

theorem execInit_ne_fault (s : State) (f : Fault) : execInit s ≠ .fault f := by
  intro h
  obtain ⟨-, hb⟩ := inPhase_eq_fault h
  split at hb <;> cases hb

theorem execOpen_ne_fault (rate : BitVec 24) (s : State) (f : Fault) : execOpen rate s ≠ .fault f := by
  intro h
  obtain ⟨-, hb⟩ := inPhase_eq_fault h
  split at hb <;> cases hb

theorem execEnd_ne_fault (s : State) (f : Fault) : execEnd s ≠ .fault f := by
  intro h
  cases (inPhase_eq_fault h).2

/-- Of all instructions only `PROC` can stop. -/
theorem exec_eq_fault {i : Instr} {s : State} {f : Fault} (h : exec i s = .fault f) :
    ∃ ch n, i = .proc ch n ∧ execProc ch n s = .fault f := by
  cases i with
  | nop => cases h
  | rst => cases h
  | proc ch n => exact ⟨ch, n, rfl, h⟩
  | wrc r v => exact absurd h (execWrc_ne_fault r v s f)
  | rdr r => exact absurd h (execRdr_ne_fault r s f)
  | init => exact absurd h (execInit_ne_fault s f)
  | openStream rate => exact absurd h (execOpen_ne_fault rate s f)
  | endStream => exact absurd h (execEnd_ne_fault s f)
  | reserved7 x => exact absurd h (illegalWord_ne_fault _ _ _ _)
  | reserved8 x => exact absurd h (illegalWord_ne_fault _ _ _ _)
  | reserved9 x => exact absurd h (illegalWord_ne_fault _ _ _ _)
  | reservedA x => exact absurd h (illegalWord_ne_fault _ _ _ _)
  | reservedB x => exact absurd h (illegalWord_ne_fault _ _ _ _)
  | reservedC x => exact absurd h (illegalWord_ne_fault _ _ _ _)
  | reservedD x => exact absurd h (illegalWord_ne_fault _ _ _ _)
  | reservedE x => exact absurd h (illegalWord_ne_fault _ _ _ _)

/-- A constructed delay line transforms every block (R49). -/
theorem DelayReady.delayTransform_ok {s : State} (h : DelayReady s) (x : List Sample) :
    ∃ r, delayTransform x s = .ok r := by
  have hd : 0 < s.cfg.dlen.toNat := h.dlen_pos
  obtain ⟨ys, m, hl, -⟩ := delayLoop_completes (p := s.params) (c := s.cfg) (cur := s.cursor.toNat) hd
    (Nat.le_trans h.delayFits h.capFits) 0 x s.buf fun a ha => h.bufDefined a (Nat.lt_of_lt_of_le ha h.delayFits)
  simp [delayTransform, hd.ne', hl]

/-- Under the invariant the transform of a stream's kind never stops. -/
theorem StateInv.transform_completes {s : State} (h : StateInv s) (hp : s.phase = .stream) {tr : Transform}
    (htr : s.cfg.kind.transform = some tr) (x : List Sample) : ∃ r, runTransform tr x s = .ok r := by
  cases tr with
  | distortion => exact ⟨_, rfl⟩
  | passthroughStereo => exact ⟨_, rfl⟩
  | delay => exact (h.delayReady (.inr hp) (EffectKind.transform_eq_delay htr)).delayTransform_ok x

theorem StateInv.step_fault {s : State} {f : Fault} (h : StateInv s) (hs : step s = .fault f) :
    f = .idle ∨ f = .held := by
  cases hq : s.cmdQ with
  | nil =>
    rw [step_nil hq] at hs
    exact .inl (Host.Outcome.fault.inj hs).symm
  | cons w q =>
    rw [step_cons hq] at hs
    split at hs
    · obtain ⟨ch, n, -, he⟩ := exec_eq_fault hs
      obtain ⟨hp, hf | ⟨tr, htr, hr⟩⟩ := execProc_eq_fault he
      · exact .inr hf
      · obtain ⟨r, hok⟩ := (h.popCmd.popIn (blockWords ch n)).transform_completes hp htr (s.inQ.take _)
        cases hok.symm.trans hr
    · exact absurd hs (illegalWord_ne_fault _ _ _ _)

/-- The model gives every command word a meaning. -/
theorem step_ne_refused (s : State) (r : Refusal) : step s ≠ .refused r := by
  cases hq : s.cmdQ with
  | nil => simp [step_nil hq]
  | cons w q =>
    rw [step_cons hq]
    split
    · exact exec_ne_refused _ _ _
    · exact illegalWord_ne_refused _ _ _ _

end Sys2Proof.Machine

namespace Sys2Proof.Proofs

open Sys2Proof.Machine

/-- Settles O44: in CONFIG the invariant asks for the zeros of reset and an empty buffer is canonical. -/
theorem invHoldsAtReset : Obligations.InvHoldsAtReset := stateInv_reset

/-- Settles O45, by the three things a step can do: drop its word, raise a fault, or its command's own effect. -/
theorem stepKeepsInv : Obligations.StepKeepsInv := fun _ _ => step_stateInv

/-- Settles O47: only `PROC` can stop, and its transform completes on a constructed delay line. -/
theorem invRulesOutEveryOtherStop : Obligations.InvRulesOutEveryOtherStop :=
  fun s h => ⟨fun _ hs => h.step_fault hs, step_ne_refused s⟩

end Sys2Proof.Proofs
end

section
/-! What a step leaves alone and does not look at: the word it takes from `CMD_Q`, the frozen registers, the words
behind those it takes, and the traces. -/

namespace Sys2Proof.Machine

/-! ### The word of `RST` -/

theorem decodeBare_ok {w : CmdWord} {i j : Instr} (h : decodeBare w i = .ok j) :
    regField w = 0 ∧ immField w = 0 ∧ i = j := by
  unfold decodeBare at h
  split at h
  · rename_i hz
    exact ⟨hz.1, hz.2, Except.ok.inj h⟩
  · cases h

/-- Only the opcode 0xF decodes to `RST`, with both fields zero (R83, R84). -/
theorem fields_of_decode_rst {w : CmdWord} (h : decode w = .ok .rst) :
    (opcField w).toNat = 15 ∧ regField w = 0 ∧ immField w = 0 := by
  have hlt := (opcField w).isLt
  unfold decode at h
  split at h
  case h_1 | h_4 | h_7 => cases (decodeBare_ok h).2.2
  case h_2 | h_5 | h_6 => split at h <;> cases h
  case h_3 =>
    split at h
    · cases h
    · split at h <;> cases h
  case h_16 =>
    simp only [imp_false] at *
    obtain ⟨hreg, himm, -⟩ := decodeBare_ok h
    exact ⟨by omega, hreg, himm⟩
  all_goals cases h

/-- One word only decodes to `RST`, its encoding (R83). -/
theorem eq_of_decode_rst {w : CmdWord} (h : decode w = .ok .rst) : w = 0xF0000000 := by
  obtain ⟨hopc, hreg, himm⟩ := fields_of_decode_rst h
  have hopc' : opcField w = 15#4 := BitVec.eq_of_toNat_eq hopc
  rw [← opc_append_low w, ← reg_append_imm w, hopc', hreg, himm]
  rfl

theorem ne_rst_of_head {s : State} {w : CmdWord} {q : List CmdWord} {i : Instr} (hq : s.cmdQ = w :: q)
    (hr : s.cmdQ.head? ≠ some 0xF0000000) (hd : decode w = .ok i) : i ≠ .rst := by
  rintro rfl
  exact hr (by rw [hq, eq_of_decode_rst hd]; rfl)

/-! ### What a step leaves alone -/

theorem step_cmdQ {s t : State} (h : step s = .next t) : ∃ w, s.cmdQ = w :: t.cmdQ := by
  obtain ⟨w, q, hq, ht⟩ := step_next_cases h
  suffices t.cmdQ = s.cmdQ.tail from ⟨w, by rw [this, hq]; rfl⟩
  rcases ht with ⟨-, rfl⟩ | ⟨-, c, info, w', rfl, -⟩ | ⟨i, -, ho⟩
  · rfl
  · rfl
  · exact ho.cmdQ

/-- A transform leaves the parameters, the configuration and the traces alone (R157). -/
theorem runTransform_keeps {tr : Transform} {x y : List Sample} {s t : State} (h : runTransform tr x s = .ok (y, t)) :
    t.params = s.params ∧ t.cfg = s.cfg ∧ t.outT = s.outT ∧ t.rspT = s.rspT := by
  rw [(runTransform_frame h).1]
  exact ⟨rfl, rfl, rfl, rfl⟩

/-- No instruction writes the implementation parameters (00_scope.md R7), and only `WRC` and `RST` write the
configuration registers. -/
theorem OwnEffect.params_cfg {s t : State} {i : Instr} (h : OwnEffect s t i) :
    t.params = s.params ∧ (s.phase ≠ .config → i ≠ .rst → t.cfg = s.cfg) := by
  cases i <;> simp only [OwnEffect] at h
  case nop => subst h; exact ⟨rfl, fun _ _ => rfl⟩
  case wrc => obtain ⟨-, hp, rfl⟩ := h; exact ⟨rfl, fun hne => absurd hp hne⟩
  case rdr => obtain ⟨_, -, rfl⟩ := h; exact ⟨rfl, fun _ _ => rfl⟩
  case init => obtain ⟨-, -, rfl⟩ := h; exact ⟨rfl, fun _ _ => rfl⟩
  case openStream => obtain ⟨-, -, rfl⟩ := h; exact ⟨rfl, fun _ _ => rfl⟩
  case proc =>
    obtain ⟨_, _, s', -, -, -, hr, rfl⟩ := h
    obtain ⟨hparams, hcfg, -, -⟩ := runTransform_keeps hr
    exact ⟨hparams, fun _ _ => hcfg⟩
  case endStream => obtain ⟨-, rfl⟩ := h; exact ⟨rfl, fun _ _ => rfl⟩
  case rst => subst h; exact ⟨rfl, fun _ hne => absurd rfl hne⟩

theorem step_params_cfg {s t : State} (h : step s = .next t) :
    t.params = s.params ∧ (s.phase ≠ .config → s.cmdQ.head? ≠ some 0xF0000000 → t.cfg = s.cfg) := by
  obtain ⟨w, q, hq, ⟨-, rfl⟩ | ⟨-, c, info, w', rfl, -⟩ | ⟨i, hd, ho⟩⟩ := step_next_cases h
  · exact ⟨rfl, fun _ _ => rfl⟩
  · exact ⟨rfl, fun _ _ => rfl⟩
  · obtain ⟨hp, hc⟩ := ho.params_cfg
    exact ⟨hp, fun hne hr => hc hne (ne_rst_of_head hq hr hd)⟩

/-! ### What a step does not look at -/

/-- The state with words appended behind both queues and with other traces. -/
def State.reframe (s : State) (cs : List CmdWord) (us o : List Sample) (r : List CmdWord) : State :=
  { s with cmdQ := s.cmdQ ++ cs, inQ := s.inQ ++ us, outT := o, rspT := r }

theorem State.reframe_nil (s : State) (o : List Sample) (r : List CmdWord) :
    s.reframe [] [] o r = { s with outT := o, rspT := r } := by
  simp [State.reframe]

theorem State.reframe_popCmd {s : State} (hq : s.cmdQ ≠ []) (cs : List CmdWord) (us o : List Sample)
    (r : List CmdWord) : (s.reframe cs us o r).popCmd = s.popCmd.reframe cs us o r := by
  simp [State.reframe, State.popCmd, List.tail_append_of_ne_nil hq]

theorem State.reframe_popIn {s : State} {k : Nat} (hk : k ≤ s.inQ.length) (cs : List CmdWord) (us o : List Sample)
    (r : List CmdWord) : (s.reframe cs us o r).popIn k = (s.popIn k).reframe cs us o r := by
  simp [State.reframe, State.popIn, List.drop_append_of_le_length hk]

/-- `run` takes `s` to `t` by appending words to the traces, and does the same under any words behind the queues and any
traces (R38, R39). -/
def Reframes (run : State → Host.Outcome State Fault Refusal) (s t : State) : Prop :=
  ∃ ys ws, t.outT = s.outT ++ ys ∧ t.rspT = s.rspT ++ ws ∧
    ∀ cs us o r, run (s.reframe cs us o r) = .next (t.reframe cs us (o ++ ys) (r ++ ws))

/-- A command that appends nothing to the traces. -/
theorem Reframes.of_silent {run : State → Host.Outcome State Fault Refusal} {s t : State} (ho : t.outT = s.outT)
    (hr : t.rspT = s.rspT) (h : ∀ cs us o r, run (s.reframe cs us o r) = .next (t.reframe cs us o r)) :
    Reframes run s t :=
  ⟨[], [], by simp [ho], by simp [hr], by simpa using h⟩

/-- A fault entry looks at neither the queues nor the traces. -/
theorem reframes_raiseFault {run : State → Host.Outcome State Fault Refusal} {s : State} {c : Cause}
    {info : BitVec 20} {w : CmdWord} (hq : s.cmdQ ≠ [])
    (h : ∀ cs us o r, run (s.reframe cs us o r) = .next ((s.reframe cs us o r).popCmd.raiseFault c info w)) :
    Reframes run s (s.popCmd.raiseFault c info w) :=
  .of_silent rfl rfl fun cs us o r => by rw [h, State.reframe_popCmd hq]; rfl

theorem reframes_popCmd {run : State → Host.Outcome State Fault Refusal} {s : State} (hq : s.cmdQ ≠ [])
    (h : ∀ cs us o r, run (s.reframe cs us o r) = .next (s.reframe cs us o r).popCmd) : Reframes run s s.popCmd :=
  .of_silent rfl rfl fun cs us o r => by rw [h, State.reframe_popCmd hq]

theorem illegalWord_reframes {v : Illegal} {w : CmdWord} {s t : State} (hq : s.cmdQ ≠ [])
    (h : illegalWord v w s = .next t) : Reframes (illegalWord v w) s t := by
  rcases illegalWord_next h with ⟨hf, rfl⟩ | ⟨hf, rfl⟩
  · exact reframes_popCmd hq fun _ _ _ _ => if_pos hf
  · exact reframes_raiseFault hq fun _ _ _ _ => if_neg hf

/-- The phase check looks at the phase only. -/
theorem inPhase_reframes {q : Phase} {w : CmdWord} {s t : State} {body : State → Host.Outcome State Fault Refusal}
    (hq : s.cmdQ ≠ []) (hb : s.phase = q → body s = .next t → Reframes body s t)
    (h : inPhase q w s body = .next t) : Reframes (inPhase q w · body) s t := by
  rcases inPhase_cases q w s body with ⟨hf, e⟩ | ⟨hp, hf, e⟩ | ⟨hf, hne, e⟩ <;> rw [e] at h
  · obtain rfl := Host.Outcome.next.inj h
    exact reframes_popCmd hq fun _ _ _ _ => inPhase_fault hf
  · obtain ⟨ys, ws, hy, hw, hrun⟩ := hb hp h
    refine ⟨ys, ws, hy, hw, fun cs us o r => ?_⟩
    rw [← hrun]
    exact inPhase_legal (hp ▸ hf) hp
  · obtain rfl := Host.Outcome.next.inj h
    exact reframes_raiseFault hq fun _ _ _ _ => inPhase_wrong hf hne

theorem execWrc_reframes {r : RegNum} {v : RegWord} {s t : State} (hq : s.cmdQ ≠ []) (h : execWrc r v s = .next t) :
    Reframes (execWrc r v) s t := by
  unfold execWrc at h ⊢
  split at h
  · rename_i hr
    simpa only [if_pos hr] using illegalWord_reframes hq h
  · rename_i hr
    simp only [if_neg hr]
    refine inPhase_reframes hq (fun _ hb => ?_) h
    obtain rfl := Host.Outcome.next.inj hb
    exact .of_silent rfl rfl fun cs us o r => by rw [State.reframe_popCmd hq]; rfl

theorem execRdr_reframes {r : RegNum} {s t : State} (hq : s.cmdQ ≠ []) (h : execRdr r s = .next t) :
    Reframes (execRdr r) s t := by
  have hread : ∀ cs us o r', (s.reframe cs us o r').readReg r = s.readReg r := fun _ _ _ _ => rfl
  unfold execRdr at h ⊢
  split at h
  · rename_i w hw
    obtain rfl := Host.Outcome.next.inj h
    refine ⟨[], [w], by simp, by simp, fun cs us o r' => ?_⟩
    simp only [hread, hw, State.reframe_popCmd hq]
    simp [State.pushRsp, State.reframe]
  · rename_i hw
    simpa only [Reframes, hread, hw] using illegalWord_reframes hq h

theorem execInit_reframes {s t : State} (hq : s.cmdQ ≠ []) (h : execInit s = .next t) : Reframes execInit s t := by
  refine inPhase_reframes hq (fun _ hb => ?_) h
  split at hb
  · rename_i c hv
    obtain rfl := Host.Outcome.next.inj hb
    refine reframes_raiseFault hq fun cs us o r => ?_
    have hv' : validate (s.reframe cs us o r).params (s.reframe cs us o r).cfg = some c := hv
    simp only [hv']
  · rename_i hv
    obtain rfl := Host.Outcome.next.inj hb
    refine .of_silent rfl rfl fun cs us o r => ?_
    have hv' : validate (s.reframe cs us o r).params (s.reframe cs us o r).cfg = none := hv
    simp only [hv', State.reframe_popCmd hq]
    rfl

theorem execOpen_reframes {rate : BitVec 24} {s t : State} (hq : s.cmdQ ≠ []) (h : execOpen rate s = .next t) :
    Reframes (execOpen rate) s t := by
  refine inPhase_reframes hq (fun _ hb => ?_) h
  split at hb
  · rename_i hr
    obtain rfl := Host.Outcome.next.inj hb
    exact .of_silent rfl rfl fun cs us o r => by rw [State.reframe_popCmd hq]; exact if_pos hr
  · rename_i hr
    obtain rfl := Host.Outcome.next.inj hb
    exact reframes_raiseFault hq fun _ _ _ _ => if_neg hr

/-- A transform works on its block, the buffer, the cursor and the configuration. -/
theorem runTransform_reframe {tr : Transform} {x y : List Sample} {s t : State} (h : runTransform tr x s = .ok (y, t))
    (cs : List CmdWord) (us o : List Sample) (r : List CmdWord) :
    runTransform tr x (s.reframe cs us o r) = .ok (y, t.reframe cs us o r) := by
  rcases runTransform_ok h with ⟨rfl, rfl, rfl⟩ | ⟨rfl, rfl, rfl⟩ | ⟨rfl, hd, m, hl, rfl⟩
  · rfl
  · rfl
  · simp only [runTransform, delayTransform, State.reframe, hd, if_false, hl]
    rfl

theorem execProc_reframes {ch : BitVec 1} {n : BitVec 24} {s t : State} (hq : s.cmdQ ≠ [])
    (h : execProc ch n s = .next t) : Reframes (execProc ch n) s t := by
  have hchecks : ∀ cs us o r, procChecks ch n (s.reframe cs us o r) = procChecks ch n s := fun _ _ _ _ => rfl
  refine inPhase_reframes hq (fun hp _ => ?_) h
  rcases execProc_stream_next hp h with ⟨c, info, hc, rfl⟩ | ⟨tr, y, s', hc, hl, hr, rfl⟩
  · refine reframes_raiseFault hq fun cs us o r => ?_
    simp only [hchecks, hc]
  · obtain ⟨-, -, hout, hrsp⟩ := runTransform_keeps hr
    refine ⟨y, [], by simp [hout], by simp [hrsp], fun cs us o r => ?_⟩
    have hlen : ¬ (s.reframe cs us o r).inQ.length < blockWords ch n := by
      simp only [State.reframe, List.length_append]
      omega
    have htake : (s.reframe cs us o r).inQ.take (blockWords ch n) = s.inQ.take (blockWords ch n) :=
      List.take_append_of_le_length hl
    have hpop : (s.reframe cs us o r).popCmd.popIn (blockWords ch n) =
        (s.popCmd.popIn (blockWords ch n)).reframe cs us o r := by
      rw [State.reframe_popCmd hq, State.reframe_popIn (s := s.popCmd) hl]
    simp only [hchecks, hc, if_neg hlen, htake, hpop, runTransform_reframe hr]
    simp [State.pushOut, State.reframe]

theorem execEnd_reframes {s t : State} (hq : s.cmdQ ≠ []) (h : execEnd s = .next t) : Reframes execEnd s t := by
  refine inPhase_reframes hq (fun _ hb => ?_) h
  obtain rfl := Host.Outcome.next.inj hb
  exact .of_silent rfl rfl fun cs us o r => by rw [State.reframe_popCmd hq]; rfl

/-- No instruction but `RST` looks at the words behind those it takes or at the traces. -/
theorem exec_reframes {i : Instr} {s t : State} (hi : i ≠ .rst) (hq : s.cmdQ ≠ []) (h : exec i s = .next t) :
    Reframes (exec i) s t := by
  cases i with
  | nop =>
    obtain rfl := Host.Outcome.next.inj h
    exact reframes_popCmd hq fun _ _ _ _ => rfl
  | wrc r v => exact execWrc_reframes hq h
  | rdr r => exact execRdr_reframes hq h
  | init => exact execInit_reframes hq h
  | openStream rate => exact execOpen_reframes hq h
  | proc ch n => exact execProc_reframes hq h
  | endStream => exact execEnd_reframes hq h
  | rst => exact absurd rfl hi
  | reserved7 x => exact illegalWord_reframes hq h
  | reserved8 x => exact illegalWord_reframes hq h
  | reserved9 x => exact illegalWord_reframes hq h
  | reservedA x => exact illegalWord_reframes hq h
  | reservedB x => exact illegalWord_reframes hq h
  | reservedC x => exact illegalWord_reframes hq h
  | reservedD x => exact illegalWord_reframes hq h
  | reservedE x => exact illegalWord_reframes hq h

theorem step_ok {s : State} {w : CmdWord} {q : List CmdWord} {i : Instr} (hq : s.cmdQ = w :: q)
    (hd : decode w = .ok i) : step s = exec i s := by
  simp only [step_cons hq, hd]

theorem step_error {s : State} {w : CmdWord} {q : List CmdWord} {v : Illegal} (hq : s.cmdQ = w :: q)
    (hd : decode w = .error v) : step s = illegalWord v w s := by
  simp only [step_cons hq, hd]

/-- The head word stays the same with words appended. -/
theorem State.reframe_cmdQ {s : State} {w : CmdWord} {q : List CmdWord} (hq : s.cmdQ = w :: q) (cs : List CmdWord)
    (us o : List Sample) (r : List CmdWord) : (s.reframe cs us o r).cmdQ = w :: (q ++ cs) := by
  simp [State.reframe, hq]

theorem step_reframes {s t : State} (h : step s = .next t) (hr : s.cmdQ.head? ≠ some 0xF0000000) :
    Reframes step s t := by
  obtain ⟨w, q, hq, hw⟩ := step_next h
  have hne : s.cmdQ ≠ [] := by simp [hq]
  rcases hw with ⟨i, hd, he⟩ | ⟨v, hd, he⟩
  · obtain ⟨ys, ws, ho, hp, hrun⟩ := exec_reframes (ne_rst_of_head hq hr hd) hne he
    exact ⟨ys, ws, ho, hp, fun cs us o r => (step_ok (State.reframe_cmdQ hq cs us o r) hd).trans (hrun cs us o r)⟩
  · obtain ⟨ys, ws, ho, hp, hrun⟩ := illegalWord_reframes hne he
    exact ⟨ys, ws, ho, hp, fun cs us o r => (step_error (State.reframe_cmdQ hq cs us o r) hd).trans (hrun cs us o r)⟩

/-- `RST` empties `IN_Q`, but it does not look at the traces either (R46). -/
theorem step_rst_withTraces {s t : State} (h : step s = .next t) (hr : s.cmdQ.head? = some 0xF0000000) :
    t.outT = s.outT ∧ t.rspT = s.rspT ∧
      ∀ o r, step { s with outT := o, rspT := r } = .next { t with outT := o, rspT := r } := by
  obtain ⟨q, hq⟩ := List.head?_eq_some_iff.1 hr
  have hstep : ∀ s' : State, s'.cmdQ = s.cmdQ → step s' = .next s'.popCmd.softReset :=
    fun s' hs' => step_ok (i := .rst) (hs'.trans hq) rfl
  obtain rfl := Host.Outcome.next.inj ((hstep s rfl).symm.trans h)
  exact ⟨rfl, rfl, fun o r => hstep { s with outT := o, rspT := r } rfl⟩

end Sys2Proof.Machine

namespace Sys2Proof.Proofs

open Sys2Proof.Machine

/-- Settles O8: a drop, a fault entry and every own effect leave the tail of `CMD_Q`. -/
theorem everyStepRemovesOneCommandWord : Obligations.EveryStepRemovesOneCommandWord := fun _ _ h => step_cmdQ h

/-- Settles O40: `WRC` writes in CONFIG only, and only the word of `RST` decodes to `RST`. -/
theorem configurationIsFrozen : Obligations.ConfigurationIsFrozen := fun _ _ h => step_params_cfg h

/-- Settles O38: `RST` keeps the traces; every other step is the same under any traces. -/
theorem tracesAreAppendOnlyAndNeverRead : Obligations.TracesAreAppendOnlyAndNeverRead := by
  intro s t h
  by_cases hr : s.cmdQ.head? = some 0xF0000000
  · obtain ⟨ho, hw, hrun⟩ := step_rst_withTraces h hr
    exact ⟨[], [], by simp [ho], by simp [hw], by simpa using hrun⟩
  · obtain ⟨ys, ws, ho, hw, hrun⟩ := step_reframes h hr
    exact ⟨ys, ws, ho, hw, fun o r => by simpa only [State.reframe_nil] using hrun [] [] o r⟩

/-- Settles O42: the reframed step with the traces as they are. -/
theorem stepIgnoresLaterQueueWords : Obligations.StepIgnoresLaterQueueWords := by
  intro s t cs us h hr
  obtain ⟨ys, ws, ho, hw, hrun⟩ := step_reframes h hr
  have hrun' := hrun cs us s.outT s.rspT
  rw [← ho, ← hw] at hrun'
  exact hrun'

end Sys2Proof.Proofs
end

section
/-! The register space: the bit fields of `CTRL` and `STATUS`, the constant of `ID`, and the numbers no command may
write or read. -/

namespace Sys2Proof.Machine

open Sys2Proof.Claims

/-! ### Register numbers without a register to write or to read -/

/-- The verdict of an illegal word, written out as the record of its fault entry (R90, R222). -/
theorem illegalWord_eq (v : Illegal) (w : CmdWord) (s : State) :
    illegalWord v w s = .next (illegalResult s w (illegalCause v).sub) := by
  unfold illegalWord illegalResult
  split
  · rfl
  · cases v <;> rfl

theorem exec_wrc_bad {r : RegNum} (hr : 7 < r.toNat) (v : RegWord) (s : State) :
    exec (.wrc r v) s = .next (illegalResult s (encode (.wrc r v)) 3) := by
  show execWrc r v s = _
  rw [execWrc, if_pos hr]
  exact illegalWord_eq _ _ _

theorem exec_rdr_bad {r : RegNum} (hr : 12 < r.toNat) (s : State) :
    exec (.rdr r) s = .next (illegalResult s (encode (.rdr r)) 3) := by
  show execRdr r s = _
  simp only [execRdr, State.readReg_none hr]
  exact illegalWord_eq _ _ _

/-- The first eight bits of a `WRC` word are its opcode and its register number (R81). -/
theorem encode_wrc (r : RegNum) (v : RegWord) : encode (.wrc r v) = ((1#4 ++ r : BitVec 8) ++ v : BitVec 32) :=
  (BitVec.append_assoc (x₁ := 1#4) (x₂ := r) (x₃ := v)).symm

/-! ### `CTRL` -/

theorem EffectKind.ofBits_toNat (b : BitVec 2) :
    (EffectKind.ofBits b = .distortion ↔ b.toNat = 0) ∧ (EffectKind.ofBits b = .delay ↔ b.toNat = 1) ∧
      (EffectKind.ofBits b = .reverb ↔ b.toNat = 2) ∧ (EffectKind.ofBits b = .passthroughStereo ↔ b.toNat = 3) := by
  revert b
  decide

theorem ConfigRegs.kindBits_toNat (c : ConfigRegs) : (c.ctrl.extractLsb' 0 2).toNat = c.ctrl.toNat % 4 := by
  simp

theorem ConfigRegs.sat_iff (c : ConfigRegs) : c.sat = true ↔ c.ctrl.toNat / 4 % 2 = 1 := by
  rw [ConfigRegs.sat, BitVec.getLsbD, Nat.testBit_eq_decide_div_mod_eq]
  simp

theorem ConfigRegs.ctrlReserved_toNat (c : ConfigRegs) : c.ctrlReserved.toNat = c.ctrl.toNat / 8 := by
  have hlt := c.ctrl.isLt
  rw [ConfigRegs.ctrlReserved, BitVec.extractLsb'_toNat, Nat.shiftRight_eq_div_pow]
  exact Nat.mod_eq_of_lt (by omega)

/-! ### `STATUS` -/

/-- The four fields of `STATUS` at every phase and fault code (R31). -/
theorem State.status_fields (s : State) :
    s.status.extractLsb' 0 3 = s.phase.num ∧ s.status.extractLsb' 3 1 = 0 ∧
      s.status.extractLsb' 4 4 = s.faultKind.code ∧ s.status.extractLsb' 8 16 = 0 := by
  unfold State.status
  cases s.phase <;> cases s.faultKind <;> decide

theorem FaultKind.code_ne_zero_iff (k : FaultKind) : k.code ≠ 0 ↔ k ≠ .none := by
  cases k <;> decide

end Sys2Proof.Machine

namespace Sys2Proof.Proofs

open Sys2Proof.Machine

/-- Settles O17: both commands answer the illegal word of their encoding. -/
theorem badRegisterNumbersRaise : Obligations.BadRegisterNumbersRaise :=
  fun s _ v => ⟨fun hr => exec_wrc_bad hr v s, fun hr => exec_rdr_bad hr s⟩

/-- Settles O18, by arithmetic on `CTRL`. -/
theorem ctrlFields : Obligations.CtrlFields := by
  intro c
  obtain ⟨hdist, hdelay, hreverb, hpass⟩ := EffectKind.ofBits_toNat (c.ctrl.extractLsb' 0 2)
  rw [c.kindBits_toNat] at hdist hdelay hreverb hpass
  exact ⟨hdist, hdelay, hreverb, hpass, c.sat_iff, c.ctrlReserved_toNat⟩

/-- Settles O19: the fields at every phase and fault kind, and number 8 among those `WRC` may not name. -/
theorem statusRegisterLayout : Obligations.StatusRegisterLayout := by
  intro s
  obtain ⟨hphase, hzero, hcode, hhigh⟩ := s.status_fields
  refine ⟨hphase, hzero, hcode, hhigh, fun v => ?_, fun h => ?_⟩
  · have hword : encode (.wrc 8 v) = 0x18#8 ++ v := encode_wrc 8 v
    rw [exec_wrc_bad (by decide), hword]
  · rw [FaultKind.code_ne_zero_iff, h.faultIff]

/-- Settles O20: `RDR 12` by evaluation, and number 12 among those `WRC` may not name. -/
theorem idRegisterIsConstant : Obligations.IdRegisterIsConstant := by
  intro s v
  refine ⟨rfl, by decide, by decide, ?_⟩
  have hword : encode (.wrc 12 v) = 0x1C#8 ++ v := encode_wrc 12 v
  rw [exec_wrc_bad (by decide), hword]

end Sys2Proof.Proofs
end

section
/-! Which steps write which words of `BUF`: a word that decodes is the encoding of its instruction, and among the own
effects only those of `INIT` and `PROC` under the delay kind change a buffer word. -/

namespace Sys2Proof

/-! ### The word behind a decoded instruction -/

/-- A word is fixed by its opcode and the 28 bits below (R81). -/
theorem encode_eq_of_fields {w : CmdWord} {i : Instr} (ho : (opcField w).toNat = i.opcode.toNat)
    (hl : lowField w = i.lowBits) : encode i = w := by
  have ho' : opcField w = i.opcode := BitVec.eq_of_toNat_eq ho
  rw [encode, ← ho', ← hl, opc_append_low]

theorem encode_eq_of_decodeBare {w : CmdWord} {i j : Instr} (h : decodeBare w i = .ok j)
    (ho : (opcField w).toNat = i.opcode.toNat) (hi : i.lowBits = 0) : encode j = w := by
  obtain ⟨hreg, himm, rfl⟩ := Machine.decodeBare_ok h
  refine encode_eq_of_fields ho ?_
  rw [← reg_append_imm, hreg, himm, hi]
  rfl

/-- No bit of a decoded word is lost: it is the encoding of its instruction (R83, R84). -/
theorem encode_eq_of_decode {w : CmdWord} {i : Instr} (h : decode w = .ok i) : encode i = w := by
  have hlt := (opcField w).isLt
  unfold decode at h
  split at h
  case h_1 ho | h_4 ho | h_7 ho => exact encode_eq_of_decodeBare h ho rfl
  case h_2 ho =>
    split at h
    · obtain rfl := Except.ok.inj h
      exact encode_eq_of_fields ho (reg_append_imm w).symm
    · cases h
  case h_3 ho =>
    split at h
    · cases h
    · rename_i himm
      split at h
      · obtain rfl := Except.ok.inj h
        refine encode_eq_of_fields ho ?_
        rw [← reg_append_imm, not_not.1 himm, Instr.lowBits]
      · cases h
  case h_5 ho =>
    split at h
    · rename_i hreg
      obtain rfl := Except.ok.inj h
      refine encode_eq_of_fields ho ?_
      rw [← reg_append_imm, hreg, Instr.lowBits]
    · cases h
  case h_6 ho =>
    split at h
    · rename_i hres
      obtain rfl := Except.ok.inj h
      refine encode_eq_of_fields ho ?_
      rw [← reg_append_imm, ← reserved_append_ch, hres, Instr.lowBits]
    · cases h
  case h_16 =>
    simp only [imp_false] at *
    have ho : (opcField w).toNat = 15 := by omega
    exact encode_eq_of_decodeBare h ho rfl
  all_goals
    rename_i ho
    obtain rfl := Except.ok.inj h
    exact encode_eq_of_fields ho rfl

/-- The first eight bits of a mono `PROC` word are its opcode, the reserved zeros and the channel bit (R81). -/
theorem encode_proc_mono (n : BitVec 24) : encode (.proc 0 n) = 0x50#8 ++ n :=
  (BitVec.append_assoc (x₁ := 5#4) (x₂ := 0#4) (x₃ := n)).symm

end Sys2Proof

namespace Sys2Proof.Machine

/-! ### Which instruction changes which buffer word -/

/-- Zeroing at `INIT` changes words of a delay line below `CAP` only (R136). -/
theorem initBuf_changes {s : State} {a : Nat} (h : (initBuf s).read a ≠ s.buf.read a) :
    s.cfg.kind = .delay ∧ a < s.cfg.cap.toNat := by
  by_cases hk : s.cfg.kind = .delay
  · refine ⟨hk, ?_⟩
    by_contra ha
    rw [initBuf, if_pos hk, Memory.read_zeroBelow, if_neg ha] at h
    exact h rfl
  · rw [initBuf, if_neg hk] at h
    exact absurd rfl h

/-- Only the delay transform changes buffer words, at the addresses of its samples (R171, R172). -/
theorem runTransform_changes {tr : Transform} {x y : List Sample} {s t : State} {a : Nat}
    (hr : runTransform tr x s = .ok (y, t)) (h : t.buf.read a ≠ s.buf.read a) :
    tr = .delay ∧ ∃ i < x.length, a = (s.cursor.toNat + i) % s.cfg.dlen.toNat := by
  rcases runTransform_ok hr with ⟨-, -, rfl⟩ | ⟨-, -, rfl⟩ | ⟨rfl, -, m, hl, rfl⟩
  · exact absurd rfl h
  · exact absurd rfl h
  · refine ⟨rfl, ?_⟩
    by_contra hout
    push Not at hout
    exact h (delayLoop_read_other hl fun j hj => by simpa using hout j hj)

/-- Among the own effects only those of `INIT` and a mono `PROC` of the delay kind change a buffer word (R62). -/
theorem OwnEffect.changes {s t : State} {i : Instr} {a : Nat} (ho : OwnEffect s t i)
    (h : t.buf.read a ≠ s.buf.read a) :
    (i = .init ∧ s.phase = .config ∧ s.cfg.kind = .delay ∧ a < s.cfg.cap.toNat) ∨
      ∃ n, i = .proc 0 n ∧ s.phase = .stream ∧ s.cfg.kind = .delay ∧
        ∃ k < n.toNat, a = (s.cursor.toNat + k) % s.cfg.dlen.toNat := by
  cases i <;> simp only [OwnEffect] at ho
  case nop => subst ho; exact absurd rfl h
  case wrc => obtain ⟨-, -, rfl⟩ := ho; exact absurd rfl h
  case rdr => obtain ⟨_, -, rfl⟩ := ho; exact absurd rfl h
  case init =>
    obtain ⟨hp, -, rfl⟩ := ho
    obtain ⟨hk, ha⟩ := initBuf_changes h
    exact .inl ⟨rfl, hp, hk, ha⟩
  case openStream => obtain ⟨-, -, rfl⟩ := ho; exact absurd rfl h
  case proc ch n =>
    obtain ⟨tr, y, s', hp, hc, -, hr, rfl⟩ := ho
    obtain ⟨rfl, k, hk, ha⟩ := runTransform_changes hr h
    obtain ⟨rfl, htr, -⟩ := procChecks_ok hc
    have hkind : s.cfg.kind = .delay := EffectKind.transform_eq_delay htr
    have hmono : s.cfg.kind.cap = 0 := by rw [hkind]; rfl
    have hkn : k < n.toNat := by
      rw [hmono, blockWords_mono] at hk
      exact Nat.lt_of_lt_of_le hk (List.length_take_le _ _)
    exact .inr ⟨n, by rw [hmono], hp, hkind, k, hkn, ha⟩
  case endStream => obtain ⟨-, rfl⟩ := ho; exact absurd rfl h
  case rst => subst ho; exact absurd rfl h

end Sys2Proof.Machine

namespace Sys2Proof.Proofs

open Sys2Proof.Machine

/-- Settles O41: a drop and a fault entry keep `BUF`, and the head word encodes the instruction whose own effect changed
the word. -/
theorem onlyInitAndProcWriteTheBuffer : Obligations.OnlyInitAndProcWriteTheBuffer := by
  intro s t a hs h
  obtain ⟨w, q, hq, ⟨-, rfl⟩ | ⟨-, _, _, _, rfl, -⟩ | ⟨i, hd, ho⟩⟩ := step_next_cases hs
  · exact absurd rfl h
  · exact absurd rfl h
  · have hhead : s.cmdQ.head? = some (encode i) := by rw [hq, encode_eq_of_decode hd]; rfl
    rcases ho.changes h with ⟨rfl, heff⟩ | ⟨n, rfl, heff⟩
    · exact .inl ⟨hhead, heff⟩
    · exact .inr ⟨n, by rw [hhead, encode_proc_mono], heff⟩

end Sys2Proof.Proofs
end

section
/-! Decoding against encoding: an encoded word decodes to its instruction, the rows of the opcode table by mask and
match, and the words the decoder rejects (30_encoding.md R81 to R84). -/

namespace Sys2Proof

/-! ### The fields of an encoded word -/

theorem regField_encode {i : Instr} {r : RegNum} {v : BitVec 24} (h : i.lowBits = r ++ v) : regField (encode i) = r := by
  rw [regField_eq, lowField_encode, h, BitVec.extractLsb'_append_eq_left]

theorem immField_encode {i : Instr} {r : RegNum} {v : BitVec 24} (h : i.lowBits = r ++ v) : immField (encode i) = v := by
  rw [immField_eq, lowField_encode, h, BitVec.extractLsb'_append_eq_right]

/-- The bits [27:24] of a `PROC` word are three zeros and the channel bit (R81). -/
theorem procFields_encode (ch : BitVec 1) (n : BitVec 24) :
    procReserved (encode (.proc ch n)) = 0 ∧ chField (encode (.proc ch n)) = ch := by
  have hreg := (reserved_append_ch (encode (.proc ch n))).trans (regField_encode rfl)
  have hres := congrArg (BitVec.extractLsb' 1 3) hreg
  have hch := congrArg (BitVec.extractLsb' 0 1) hreg
  simp only [BitVec.extractLsb'_append_eq_left, BitVec.extractLsb'_append_eq_right] at hres hch
  exact ⟨hres, hch⟩

/-! ### Decode and encode agree -/

theorem decodeBare_encode {i : Instr} (h : i.lowBits = 0) : decodeBare (encode i) i = .ok i :=
  if_pos ⟨regField_encode (v := 0) h, immField_encode (r := 0) h⟩

/-- The decoder takes an encoded word back to its instruction (R83, R84). -/
theorem decode_encode {i : Instr} (h : i.wellFormed = true) : decode (encode i) = .ok i := by
  have ho : (opcField (encode i)).toNat = i.opcode.toNat := by rw [opcField_encode]
  unfold decode
  rw [ho]
  cases i with
  | nop | init | endStream | rst => exact decodeBare_encode rfl
  | wrc r v =>
    have hr : r.toNat ≤ 7 := of_decide_eq_true h
    simp [Instr.opcode, regField_encode (i := .wrc r v) rfl, immField_encode (i := .wrc r v) rfl, hr]
  | rdr r =>
    have hr : r.toNat ≤ 12 := of_decide_eq_true h
    simp [Instr.opcode, regField_encode (i := .rdr r) rfl, immField_encode (i := .rdr r) rfl, hr]
  | openStream rate =>
    simp [Instr.opcode, regField_encode (i := .openStream rate) rfl, immField_encode (i := .openStream rate) rfl]
  | proc ch n => simp [Instr.opcode, procFields_encode, immField_encode (i := .proc ch n) rfl]
  | reserved7 x | reserved8 x | reserved9 x | reservedA x | reservedB x | reservedC x | reservedD x | reservedE x =>
    simp [Instr.opcode, Instr.lowBits]

/-- Only instructions that meet the further condition of R83 are decoded. -/
theorem wellFormed_of_decode {w : CmdWord} {i : Instr} (h : decode w = .ok i) : i.wellFormed = true := by
  unfold decode at h
  split at h
  case h_1 | h_4 | h_7 | h_16 => obtain ⟨-, -, rfl⟩ := Machine.decodeBare_ok h; rfl
  case h_2 =>
    split at h
    · rename_i hr
      obtain rfl := Except.ok.inj h
      exact decide_eq_true hr
    · cases h
  case h_3 =>
    split at h
    · cases h
    · split at h
      · rename_i hr
        obtain rfl := Except.ok.inj h
        exact decide_eq_true hr
      · cases h
  case h_5 | h_6 =>
    split at h
    · obtain rfl := Except.ok.inj h
      rfl
    · cases h
  all_goals
    obtain rfl := Except.ok.inj h
    rfl

/-- Decoding is the inverse of encoding on the well-formed instructions (R83, R84). -/
theorem decode_ok_iff {w : CmdWord} {i : Instr} : decode w = .ok i ↔ encode i = w ∧ i.wellFormed = true := by
  constructor
  · exact fun h => ⟨encode_eq_of_decode h, wellFormed_of_decode h⟩
  · rintro ⟨rfl, hi⟩
    exact decode_encode hi

/-! ### The fields of a word by mask and match -/

/-- A masked word equals a match exactly when the field under the mask has the match's value. -/
theorem field_mask_iff (w : CmdWord) {m v : CmdWord} {a b : Nat} {k : BitVec a} (h : b + a ≤ 32)
    (hm : m = (BitVec.allOnes a).setWidth 32 <<< b) (hv : v = k.setWidth 32 <<< b) :
    w &&& m = v ↔ w.extractLsb' b a = k := by
  subst hm hv
  constructor
  · intro he
    apply BitVec.eq_of_getLsbD_eq
    intro i hi
    have hbit := congrArg (·.getLsbD (b + i)) he
    simpa [hi, show b + i < 32 by omega, show i < 32 by omega] using hbit
  · rintro rfl
    apply BitVec.eq_of_getLsbD_eq
    intro i hi
    by_cases hb : i < b
    · simp [hb]
    · simp [hi, hb, show b + (i - b) = i by omega, Bool.and_comm]

/-- A mask in two parts: the word matches under each part. -/
theorem mask_or_iff (w : CmdWord) {m m₁ m₂ v v₁ v₂ : CmdWord} (hm : m = m₁ ||| m₂) (hv : v &&& m = v)
    (h₁ : v &&& m₁ = v₁) (h₂ : v &&& m₂ = v₂) : w &&& m = v ↔ w &&& m₁ = v₁ ∧ w &&& m₂ = v₂ := by
  subst hm h₁ h₂
  constructor
  · intro he
    have absorb : ∀ x y : CmdWord, (x ||| y) &&& x = x := by
      intro x y
      ext i hi
      cases hx : x[i] <;> simp [hx]
    have hm₁ : (m₁ ||| m₂) &&& m₁ = m₁ := absorb _ _
    have hm₂ : (m₁ ||| m₂) &&& m₂ = m₂ := by rw [BitVec.or_comm, absorb]
    rw [← he, BitVec.and_assoc, BitVec.and_assoc, hm₁, hm₂]
    exact ⟨rfl, rfl⟩
  · rintro ⟨h₁, h₂⟩
    rw [BitVec.and_or_distrib_left, h₁, h₂, ← BitVec.and_or_distrib_left, hv]

theorem opc_mask_iff (w : CmdWord) {v : CmdWord} (k : BitVec 4) (hv : v = k.setWidth 32 <<< 28) :
    w &&& 0xF0000000 = v ↔ opcField w = k :=
  field_mask_iff w (by decide) (by decide) hv

theorem reg_mask_iff (w : CmdWord) : w &&& 0x0F000000 = 0 ↔ regField w = 0 :=
  field_mask_iff w (by decide) (by decide) (by decide)

theorem imm_mask_iff (w : CmdWord) : w &&& 0x00FFFFFF = 0 ↔ immField w = 0 :=
  field_mask_iff w (by decide) (by decide) (by decide)

theorem procReserved_mask_iff (w : CmdWord) : w &&& 0x0E000000 = 0 ↔ procReserved w = 0 :=
  field_mask_iff w (by decide) (by decide) (by decide)

theorem low_mask_iff (w : CmdWord) : w &&& 0x0FFFFFFF = 0 ↔ regField w = 0 ∧ immField w = 0 :=
  (mask_or_iff w (by decide) (by decide) (by decide) (by decide)).trans
    (and_congr (reg_mask_iff w) (imm_mask_iff w))

/-- The mask of `RDR`: opcode and immediate. -/
theorem rdr_mask_iff (w : CmdWord) : w &&& 0xF0FFFFFF = 0x20000000 ↔ opcField w = 2 ∧ immField w = 0 :=
  (mask_or_iff w (by decide) (by decide) (by decide) (by decide)).trans
    (and_congr (opc_mask_iff w 2 rfl) (imm_mask_iff w))

/-- The mask of `OPEN`: opcode and register number. -/
theorem open_mask_iff (w : CmdWord) : w &&& 0xFF000000 = 0x40000000 ↔ opcField w = 4 ∧ regField w = 0 :=
  (mask_or_iff w (by decide) (by decide) (by decide) (by decide)).trans
    (and_congr (opc_mask_iff w 4 rfl) (reg_mask_iff w))

/-- The mask of `PROC`: opcode and reserved bits. -/
theorem proc_mask_iff (w : CmdWord) : w &&& 0xFE000000 = 0x50000000 ↔ opcField w = 5 ∧ procReserved w = 0 :=
  (mask_or_iff w (by decide) (by decide) (by decide) (by decide)).trans
    (and_congr (opc_mask_iff w 5 rfl) (procReserved_mask_iff w))

/-! ### The rows of the opcode table -/

/-- A row without operands has one word. -/
theorem bare_row_iff (w : CmdWord) (i : Instr) (hi : i.wellFormed = true) :
    w &&& 0xFFFFFFFF = encode i ↔ decode w = .ok i := by
  have hw : w &&& 0xFFFFFFFF = w := BitVec.and_allOnes
  rw [hw, decode_ok_iff, and_iff_left hi, eq_comm]

theorem wrc_row_iff (w : CmdWord) :
    opcField w = 1 ∧ (regField w).toNat ≤ 7 ↔ ∃ r v, decode w = .ok (.wrc r v) := by
  constructor
  · rintro ⟨ho, hr⟩
    exact ⟨regField w, immField w, by simp [decode, ho, hr]⟩
  · rintro ⟨r, v, h⟩
    obtain ⟨rfl, hr⟩ := decode_ok_iff.1 h
    exact ⟨opcField_encode _, by rw [regField_encode rfl]; exact of_decide_eq_true hr⟩

theorem rdr_row_iff (w : CmdWord) :
    (opcField w = 2 ∧ immField w = 0) ∧ (regField w).toNat ≤ 12 ↔ ∃ r, decode w = .ok (.rdr r) := by
  constructor
  · rintro ⟨⟨ho, hi⟩, hr⟩
    exact ⟨regField w, by simp [decode, ho, hi, hr]⟩
  · rintro ⟨r, h⟩
    obtain ⟨rfl, hr⟩ := decode_ok_iff.1 h
    exact ⟨⟨opcField_encode _, immField_encode rfl⟩, by rw [regField_encode rfl]; exact of_decide_eq_true hr⟩

theorem open_row_iff (w : CmdWord) :
    opcField w = 4 ∧ regField w = 0 ↔ ∃ rate, decode w = .ok (.openStream rate) := by
  constructor
  · rintro ⟨ho, hr⟩
    exact ⟨immField w, by simp [decode, ho, hr]⟩
  · rintro ⟨rate, h⟩
    obtain ⟨rfl, -⟩ := decode_ok_iff.1 h
    exact ⟨opcField_encode _, regField_encode rfl⟩

theorem proc_row_iff (w : CmdWord) :
    opcField w = 5 ∧ procReserved w = 0 ↔ ∃ ch n, decode w = .ok (.proc ch n) := by
  constructor
  · rintro ⟨ho, hr⟩
    exact ⟨chField w, immField w, by simp [decode, ho, hr]⟩
  · rintro ⟨ch, n, h⟩
    obtain ⟨rfl, -⟩ := decode_ok_iff.1 h
    exact ⟨opcField_encode _, (procFields_encode ch n).1⟩

/-- A reserved opcode's row takes every word with its opcode (R90). -/
theorem reserved_row_iff (w : CmdWord) {v : CmdWord} {f : BitVec 28 → Instr} (k : BitVec 4)
    (hv : v = k.setWidth 32 <<< 28) (hf : ∀ x, encode (f x) = k ++ x ∧ (f x).wellFormed = true) :
    w &&& 0xF0000000 = v ↔ ∃ x, decode w = .ok (f x) := by
  rw [opc_mask_iff w k hv]
  constructor
  · rintro rfl
    exact ⟨lowField w, decode_ok_iff.2 ⟨(hf _).1.trans (opc_append_low w), (hf _).2⟩⟩
  · rintro ⟨x, h⟩
    rw [← (decode_ok_iff.1 h).1, (hf x).1, opcField_append]

/-! ### The words the decoder rejects -/

/-- The words rejected for their register number (R84): `WRC` above 7, and `RDR` above 12 with a zero immediate. -/
def BadRegisterWord (w : CmdWord) : Prop :=
  (opcField w = 1 ∧ 7 < (regField w).toNat) ∨ (opcField w = 2 ∧ immField w = 0) ∧ 12 < (regField w).toNat

/-- The words rejected for a field that is not zero (R84), by opcode. -/
def ReservedFieldWord (w : CmdWord) : Prop :=
  (opcField w = 0 ∧ ¬ (regField w = 0 ∧ immField w = 0)) ∨
  (opcField w = 2 ∧ immField w ≠ 0) ∨
  (opcField w = 3 ∧ ¬ (regField w = 0 ∧ immField w = 0)) ∨
  (opcField w = 4 ∧ regField w ≠ 0) ∨
  (opcField w = 5 ∧ procReserved w ≠ 0) ∨
  (opcField w = 6 ∧ ¬ (regField w = 0 ∧ immField w = 0)) ∨
  (opcField w = 15 ∧ ¬ (regField w = 0 ∧ immField w = 0))

/-- These words by mask and register number. -/
theorem badRegisterWord_iff (w : CmdWord) :
    BadRegisterWord w ↔
      (w &&& 0xF0000000 = 0x10000000 ∧ 7 < (w.extractLsb' 24 4).toNat) ∨
      (w &&& 0xF0FFFFFF = 0x20000000 ∧ 12 < (w.extractLsb' 24 4).toNat) :=
  (or_congr (and_congr_left' (opc_mask_iff w 1 rfl)) (and_congr_left' (rdr_mask_iff w))).symm

/-- These words by opcode and mask. -/
theorem reservedFieldWord_iff (w : CmdWord) :
    ReservedFieldWord w ↔
      (w &&& 0xF0000000 = 0x00000000 ∧ w &&& 0x0FFFFFFF ≠ 0) ∨
      (w &&& 0xF0000000 = 0x20000000 ∧ w &&& 0x00FFFFFF ≠ 0) ∨
      (w &&& 0xF0000000 = 0x30000000 ∧ w &&& 0x0FFFFFFF ≠ 0) ∨
      (w &&& 0xF0000000 = 0x40000000 ∧ w &&& 0x0F000000 ≠ 0) ∨
      (w &&& 0xF0000000 = 0x50000000 ∧ w &&& 0x0E000000 ≠ 0) ∨
      (w &&& 0xF0000000 = 0x60000000 ∧ w &&& 0x0FFFFFFF ≠ 0) ∨
      (w &&& 0xF0000000 = 0xF0000000 ∧ w &&& 0x0FFFFFFF ≠ 0) := by
  simp only [ReservedFieldWord, ne_eq, low_mask_iff, imm_mask_iff, reg_mask_iff, procReserved_mask_iff,
    opc_mask_iff w 0 (v := 0x00000000) rfl, opc_mask_iff w 2 (v := 0x20000000) rfl,
    opc_mask_iff w 3 (v := 0x30000000) rfl, opc_mask_iff w 4 (v := 0x40000000) rfl,
    opc_mask_iff w 5 (v := 0x50000000) rfl, opc_mask_iff w 6 (v := 0x60000000) rfl,
    opc_mask_iff w 15 (v := 0xF0000000) rfl]

theorem decodeBare_error_iff {w : CmdWord} {i : Instr} {v : Illegal} :
    decodeBare w i = .error v ↔ v = .reservedField ∧ ¬ (regField w = 0 ∧ immField w = 0) := by
  unfold decodeBare
  split
  · rename_i hz
    simp [hz]
  · rename_i hz
    rw [Except.error.injEq, and_iff_left hz, eq_comm]

/-- The decoder rejects these words, by these two names, and no others (R84). -/
theorem decode_error_iff {w : CmdWord} {v : Illegal} :
    decode w = .error v ↔ (v = .badRegister ∧ BadRegisterWord w) ∨ (v = .reservedField ∧ ReservedFieldWord w) := by
  have hlt := (opcField w).isLt
  unfold decode
  simp only [BadRegisterWord, ReservedFieldWord, ← BitVec.toNat_inj (x := opcField w), BitVec.ofNat_eq_ofNat]
  split
  case h_1 ho | h_4 ho | h_7 ho => simp [ho, decodeBare_error_iff]
  case h_2 ho =>
    split
    · simp [ho, not_lt.2 ‹_›]
    · simp [ho, not_le.1 ‹_›, eq_comm (a := v)]
  case h_3 ho =>
    split
    · rename_i himm
      simp [ho, himm, eq_comm (a := v)]
    · rename_i himm
      split
      · simp [ho, not_not.1 himm, not_lt.2 ‹_›]
      · simp [ho, not_not.1 himm, not_le.1 ‹_›, eq_comm (a := v)]
  case h_5 ho | h_6 ho =>
    split
    · rename_i hz
      simp [ho, hz]
    · rename_i hz
      simp [ho, hz, eq_comm (a := v)]
  case h_16 =>
    simp only [imp_false] at *
    have ho : (opcField w).toNat = 15 := by omega
    simp [ho, decodeBare_error_iff]
  all_goals
    rename_i ho
    simp [ho]

end Sys2Proof

namespace Sys2Proof.Proofs

/-- Settles O1, field by field of the encoded word. -/
theorem decodeOfEncodeIsTheInstruction : Obligations.DecodeOfEncodeIsTheInstruction := fun _ => decode_encode

/-- Settles O2: each branch of the decoder keeps every bit of the word. -/
theorem encodeOfDecodeIsTheWord : Obligations.EncodeOfDecodeIsTheWord := fun _ _ => decode_ok_iff.1

/-- Settles O3, row by row: the mask and match say what the row's fields hold. -/
theorem opcodeMapByMaskAndMatch : Obligations.OpcodeMapByMaskAndMatch := fun w =>
  ⟨bare_row_iff w .nop rfl,
    (and_congr_left' (opc_mask_iff w 1 rfl)).trans (wrc_row_iff w),
    (and_congr_left' (rdr_mask_iff w)).trans (rdr_row_iff w),
    bare_row_iff w .init rfl,
    (open_mask_iff w).trans (open_row_iff w),
    (proc_mask_iff w).trans (proc_row_iff w),
    bare_row_iff w .endStream rfl,
    bare_row_iff w .rst rfl,
    reserved_row_iff w 0x7 rfl fun _ => ⟨rfl, rfl⟩,
    reserved_row_iff w 0x8 rfl fun _ => ⟨rfl, rfl⟩,
    reserved_row_iff w 0x9 rfl fun _ => ⟨rfl, rfl⟩,
    reserved_row_iff w 0xA rfl fun _ => ⟨rfl, rfl⟩,
    reserved_row_iff w 0xB rfl fun _ => ⟨rfl, rfl⟩,
    reserved_row_iff w 0xC rfl fun _ => ⟨rfl, rfl⟩,
    reserved_row_iff w 0xD rfl fun _ => ⟨rfl, rfl⟩,
    reserved_row_iff w 0xE rfl fun _ => ⟨rfl, rfl⟩⟩

/-- Settles O4: the masks say which fields the rejected words hold. -/
theorem decoderRejectsByName : Obligations.DecoderRejectsByName := by
  intro w
  refine ⟨?_, ?_, ?_⟩
  · rw [← badRegisterWord_iff]
    simp [decode_error_iff]
  · rw [← reservedFieldWord_iff]
    simp [decode_error_iff]
  · simp [decode_error_iff]

/-- Settles O5, by evaluation. -/
theorem encodingExamplesDecode : Obligations.EncodingExamplesDecode :=
  ⟨rfl, rfl, rfl, rfl, rfl, rfl, rfl, rfl, rfl, rfl⟩

end Sys2Proof.Proofs
end

section
/-! Which command a step runs, when the engine waits, and which phase a step leaves (30_encoding.md R90, R95, R96). -/

namespace Sys2Proof.Machine

open Sys2Proof.Claims

/-! ### The step of an illegal word -/

/-- The step of a word the decoder rejects, as the record of its fault entry or its drop (R90). -/
theorem step_illegal {s : State} {w : CmdWord} {q : List CmdWord} {v : Illegal} (hq : s.cmdQ = w :: q)
    (hd : decode w = .error v) : step s = .next (illegalResult s w (illegalCause v).sub) :=
  (step_error hq hd).trans (illegalWord_eq v w s)

/-- The phase check of a misplaced command, as the record of its fault entry (R95). -/
theorem inPhase_misplaced {q : Phase} (w : CmdWord) {s : State}
    (body : State → Host.Outcome State Fault Refusal) (hf : s.phase ≠ .fault) (h : s.phase ≠ q) :
    inPhase q w s body = .next (faulted s w .illegalCommand 4 (s.phase.num.setWidth 20)) :=
  inPhase_wrong hf h

/-! ### The hold of `PROC` -/

theorem EffectKind.transform_eq_none_iff (k : EffectKind) : k.transform = none ↔ k = .reverb := by
  cases k <;> decide

theorem EffectKind.cap_of_ne_reverb {k : EffectKind} (h : k ≠ .reverb) : k.cap = 0 := by
  cases k with
  | reverb => exact absurd rfl h
  | distortion | delay | passthroughStereo => rfl

/-- The blocks that pass the checks of `PROC`: mono, of a kind with a transform, no longer than a block (R153). -/
theorem procChecks_pass_iff {ch : BitVec 1} {n : BitVec 24} {s : State} :
    (∃ tr, procChecks ch n s = .ok tr) ↔ ch = 0 ∧ s.cfg.kind ≠ .reverb ∧ n.toNat ≤ s.cfg.blockSize.toNat := by
  constructor
  · rintro ⟨tr, h⟩
    obtain ⟨rfl, htr, hn⟩ := procChecks_ok h
    have hk : s.cfg.kind ≠ .reverb := fun hk => by simp [(EffectKind.transform_eq_none_iff _).2 hk] at htr
    exact ⟨EffectKind.cap_of_ne_reverb hk, hk, hn⟩
  · rintro ⟨rfl, hk, hn⟩
    obtain ⟨tr, htr⟩ := Option.ne_none_iff_exists'.1 (mt (EffectKind.transform_eq_none_iff _).1 hk)
    exact ⟨tr, procChecks_pass (EffectKind.cap_of_ne_reverb hk) htr hn⟩

/-- `PROC` is held exactly in STREAM, with the checks passed and samples missing (R156). -/
theorem execProc_held_iff {ch : BitVec 1} {n : BitVec 24} {s : State} :
    execProc ch n s = .fault .held ↔
      s.phase = .stream ∧ (∃ tr, procChecks ch n s = .ok tr) ∧ s.inQ.length < blockWords ch n := by
  constructor
  · intro h
    obtain ⟨hp, hb⟩ := inPhase_eq_fault h
    refine ⟨hp, ?_⟩
    split at hb
    · cases hb
    · rename_i tr hc
      split at hb
      · exact ⟨⟨tr, hc⟩, ‹_›⟩
      · split at hb
        · rename_i f hr
          obtain rfl := Host.Outcome.fault.inj hb
          rcases runTransform_error hr with hf | hf | hf <;> cases hf
        · cases hb
  · rintro ⟨hp, ⟨tr, hc⟩, hl⟩
    rw [execProc, inPhase_legal (by decide) hp]
    simp only [hc, if_pos hl]

/-- The engine is held exactly by a mono `PROC` at the head that waits for samples (70_reset_and_hazards.md R255). -/
theorem step_held_iff {s : State} :
    step s = .fault .held ↔
      ∃ n q, s.cmdQ = encode (.proc 0 n) :: q ∧ s.phase = .stream ∧ s.cfg.kind ≠ .reverb ∧
        n.toNat ≤ s.cfg.blockSize.toNat ∧ s.inQ.length < n.toNat := by
  constructor
  · intro h
    cases hq : s.cmdQ with
    | nil =>
      rw [step_nil hq] at h
      cases h
    | cons w q =>
      cases hd : decode w with
      | error v => exact absurd ((step_error hq hd).symm.trans h) (illegalWord_ne_fault _ _ _ _)
      | ok i =>
        obtain ⟨ch, n, rfl, he⟩ := exec_eq_fault ((step_ok hq hd).symm.trans h)
        obtain ⟨hp, hc, hl⟩ := execProc_held_iff.1 he
        obtain ⟨rfl, hk, hn⟩ := procChecks_pass_iff.1 hc
        rw [blockWords_mono] at hl
        exact ⟨n, q, by rw [encode_eq_of_decode hd], hp, hk, hn, hl⟩
  · rintro ⟨n, q, hq, hp, hk, hn, hl⟩
    rw [step_ok hq (decode_encode rfl)]
    exact execProc_held_iff.2 ⟨hp, procChecks_pass_iff.2 ⟨rfl, hk, hn⟩, by rwa [blockWords_mono]⟩

/-- The engine is idle exactly with an empty `CMD_Q` (R96). -/
theorem step_idle_iff {s : State} : step s = .fault .idle ↔ s.cmdQ = [] := by
  refine ⟨fun h => ?_, step_nil⟩
  cases hq : s.cmdQ with
  | nil => rfl
  | cons w q =>
    rw [step_cons hq] at h
    split at h
    · obtain ⟨ch, n, -, he⟩ := exec_eq_fault h
      obtain ⟨-, hf | ⟨tr, -, hr⟩⟩ := execProc_eq_fault he
      · cases hf
      · rcases runTransform_error hr with hf | hf | hf <;> cases hf
    · exact absurd h (illegalWord_ne_fault _ _ _ _)

/-- Under the invariant the engine has a step exactly when it is neither idle nor held. -/
theorem StateInv.step_next_iff {s : State} (h : StateInv s) :
    (∃ t, step s = .next t) ↔ step s ≠ .fault .idle ∧ step s ≠ .fault .held := by
  constructor
  · rintro ⟨t, ht⟩
    simp [ht]
  · rintro ⟨hidle, hheld⟩
    cases hs : step s with
    | next t => exact ⟨t, rfl⟩
    | fault f =>
      rcases h.step_fault hs with rfl | rfl
      · exact absurd hs hidle
      · exact absurd hs hheld
    | refused r => exact absurd hs (step_ne_refused s r)

/-! ### The phase a step leaves -/

/-- The own effects that change the phase: those of `INIT`, `OPEN`, `END` and `RST` (R95). -/
theorem OwnEffect.phase {s t : State} {i : Instr} (h : OwnEffect s t i) :
    t.phase = s.phase ∨
    (s.phase = .config ∧ t.phase = .ready ∧ i = .init) ∨
    (s.phase = .ready ∧ t.phase = .stream ∧ i = .openStream s.cfg.sampleRate) ∨
    (s.phase = .stream ∧ t.phase = .done ∧ i = .endStream) ∨
    (t.phase = .config ∧ i = .rst) := by
  cases i <;> simp only [OwnEffect] at h
  case nop => subst h; exact .inl rfl
  case wrc => obtain ⟨-, -, rfl⟩ := h; exact .inl rfl
  case rdr => obtain ⟨_, -, rfl⟩ := h; exact .inl rfl
  case init => obtain ⟨hp, -, rfl⟩ := h; exact .inr (.inl ⟨hp, rfl, rfl⟩)
  case openStream => obtain ⟨hp, rfl, rfl⟩ := h; exact .inr (.inr (.inl ⟨hp, rfl, rfl⟩))
  case proc =>
    obtain ⟨_, _, _, -, -, -, hr, rfl⟩ := h
    exact .inl (by simpa using congrArg State.phase (runTransform_frame hr).1)
  case endStream => obtain ⟨hp, rfl⟩ := h; exact .inr (.inr (.inr (.inl ⟨hp, rfl, rfl⟩)))
  case rst => subst h; exact .inr (.inr (.inr (.inr ⟨rfl, rfl⟩)))

end Sys2Proof.Machine

namespace Sys2Proof.Proofs

open Sys2Proof.Machine

/-- Settles O9: under the invariant a step stops only idle or held, and both stops are known. -/
theorem engineHasAStepUnlessIdleOrHeld : Obligations.EngineHasAStepUnlessIdleOrHeld := by
  intro s h
  rw [h.step_next_iff, ne_eq, step_idle_iff, ne_eq, step_held_iff]

/-- Settles O10: the phase check comes before everything else the five commands do. -/
theorem misplacedCommandRaisesWrongPhase : Obligations.MisplacedCommandRaisesWrongPhase := by
  intro s hf
  refine ⟨fun hp r v hr => ?_, fun hp => ?_, fun hp rate => ?_, fun hp ch n => ?_, fun hp => ?_⟩
  · show execWrc r v s = _
    exact (if_neg (not_lt.2 hr)).trans (inPhase_misplaced _ _ hf hp)
  · show execInit s = _
    exact inPhase_misplaced _ _ hf hp
  · show execOpen rate s = _
    exact inPhase_misplaced _ _ hf hp
  · show execProc ch n s = _
    exact inPhase_misplaced _ _ hf hp
  · show execEnd s = _
    exact inPhase_misplaced _ _ hf hp

/-- Settles O13: a drop keeps the phase, a fault entry enters FAULT, and the head word encodes the instruction whose own
effect took an arrow. -/
theorem phaseChangesOnlyAlongTheGraph : Obligations.PhaseChangesOnlyAlongTheGraph := by
  intro s t hs
  obtain ⟨w, q, hq, ⟨-, rfl⟩ | ⟨hf, _, _, _, rfl, -⟩ | ⟨i, hd, ho⟩⟩ := step_next_cases hs
  · exact .inl rfl
  · exact .inr (.inl ⟨hf, rfl⟩)
  · have hhead : s.cmdQ.head? = some (encode i) := by rw [hq, encode_eq_of_decode hd]; rfl
    rcases ho.phase with hp | ⟨hp, ht, rfl⟩ | ⟨hp, ht, rfl⟩ | ⟨hp, ht, rfl⟩ | ⟨ht, rfl⟩
    · exact .inl hp
    · exact .inr (.inr (.inl ⟨hp, ht, hhead⟩))
    · exact .inr (.inr (.inr (.inl ⟨hp, ht, hhead⟩)))
    · exact .inr (.inr (.inr (.inr (.inl ⟨hp, ht, hhead⟩))))
    · exact .inr (.inr (.inr (.inr (.inr ⟨ht, hhead⟩))))

/-- Settles O6: the head word's verdict selects the meaning. -/
theorem stepRunsTheDecodedCommand : Obligations.StepRunsTheDecodedCommand := fun _ _ _ _ => step_ok

/-- Settles O7: the two verdicts with their sub-cause numbers. -/
theorem illegalWordRaisesOrIsDropped : Obligations.IllegalWordRaisesOrIsDropped :=
  fun _ _ _ hq => ⟨step_illegal hq, step_illegal hq⟩

/-- Settles O26: each reserved row's meaning is the illegal word of its encoding. -/
theorem reservedOpcodesRaise : Obligations.ReservedOpcodesRaise :=
  fun _ _ => ⟨illegalWord_eq _ _ _, illegalWord_eq _ _ _, illegalWord_eq _ _ _, illegalWord_eq _ _ _,
    illegalWord_eq _ _ _, illegalWord_eq _ _ _, illegalWord_eq _ _ _, illegalWord_eq _ _ _⟩

end Sys2Proof.Proofs
end

section
/-! The fixed-point arithmetic: rounding to nearest and fraction removal, the two casts, and the ranges of the three
formulas (40_arithmetic.md R112 to R121). -/

namespace Sys2Proof.Machine

/-! ### The integer nearest to `num / ONE` (R113) -/

theorem rne_of_lt_half (t : DistTies) {num : Int} (h : num % 32768 < 16384) : rne t num = num / 32768 := if_pos h

theorem rne_of_half_lt (t : DistTies) {num : Int} (h : 16384 < num % 32768) : rne t num = num / 32768 + 1 :=
  (if_neg h.le.not_gt).trans (if_pos h)

theorem rne_even_of_tie {num : Int} (h : num % 32768 = 16384) :
    rne .even num = num / 32768 + num / 32768 % 2 := by
  have he : rne .even num = if num / 32768 % 2 = 0 then num / 32768 else num / 32768 + 1 :=
    (if_neg h.ge.not_gt).trans (if_neg h.le.not_gt)
  rw [he]
  split <;> omega

theorem rne_away_of_tie {num : Int} (h : num % 32768 = 16384) :
    rne .away num = if 0 < num then num / 32768 + 1 else num / 32768 :=
  (if_neg h.ge.not_gt).trans (if_neg h.le.not_gt)

/-- Of the two neighbours of a tie, each rule picks one. -/
theorem rne_of_tie (t : DistTies) {num : Int} (h : num % 32768 = 16384) :
    rne t num = num / 32768 ∨ rne t num = num / 32768 + 1 := by
  cases t with
  | even => rw [rne_even_of_tie h]; omega
  | away => rw [rne_away_of_tie h]; omega

/-- At a tie `.away` answers the neighbour on the far side of `num / ONE` from zero. -/
theorem abs_lt_rne_away_of_tie {num : Int} (h : num % 32768 = 16384) : |num| < |rne .away num * 32768| := by
  rw [rne_away_of_tie h]
  split
  · exact lt_abs.2 (.inl (abs_lt.2 ⟨by omega, by omega⟩))
  · exact lt_abs.2 (.inr (abs_lt.2 ⟨by omega, by omega⟩))

/-- The rounded value is within one half of `num / ONE`, whatever the tie rule. -/
theorem abs_rne_sub_le (t : DistTies) (num : Int) : |rne t num * 32768 - num| ≤ 16384 := by
  rw [abs_le]
  rcases lt_trichotomy (num % 32768) 16384 with h | h | h
  · rw [rne_of_lt_half t h]; omega
  · rcases rne_of_tie t h with e | e <;> rw [e] <;> omega
  · rw [rne_of_half_lt t h]; omega

/-- No integer is nearer: another one is at least `ONE` away from the rounded value. -/
theorem abs_rne_sub_le_abs_sub (t : DistTies) (num z : Int) : |rne t num * 32768 - num| ≤ |z * 32768 - num| := by
  have hhalf := abs_rne_sub_le t num
  obtain ⟨hlo, hhi⟩ := abs_le.1 hhalf
  rcases lt_trichotomy z (rne t num) with h | rfl | h
  · exact hhalf.trans (le_abs.2 (.inr (by omega)))
  · exact le_rfl
  · exact hhalf.trans (le_abs.2 (.inl (by omega)))

/-- Rounding keeps the order, since each rounded value is within one half of its argument. -/
theorem rne_mono (t : DistTies) : Monotone (rne t) := by
  refine monotone_iff_forall_lt.2 fun a b hab => ?_
  obtain ⟨-, ha⟩ := abs_le.1 (abs_rne_sub_le t a)
  obtain ⟨hb, -⟩ := abs_le.1 (abs_rne_sub_le t b)
  omega

/-! ### Fraction removal (R112) -/

theorem quant_trunc_of_nonneg {num : Int} (h : 0 ≤ num) : quant .trunc num = num / 32768 := if_pos h

/-- Truncation is symmetric about zero. -/
theorem quant_trunc_neg (num : Int) : quant .trunc (-num) = -quant .trunc num := by
  simp only [quant, one]
  split <;> split <;> omega

/-- Every setting of `CAST_RND` keeps the order. -/
theorem quant_mono (r : CastRnd) : Monotone (quant r) := by
  intro a b hab
  cases r with
  | trunc =>
    simp only [quant, one]
    split <;> split <;> omega
  | floor => exact Int.ediv_le_ediv (by decide) hab
  | nearestEven => exact rne_mono .even hab

theorem le_quant (r : CastRnd) {k num : Int} (h : k * one ≤ num) : k ≤ quant r num :=
  (quant_mul_one r k).ge.trans (quant_mono r h)

theorem quant_le (r : CastRnd) {k num : Int} (h : num ≤ k * one) : quant r num ≤ k :=
  (quant_mono r h).trans (quant_mul_one r k).le

/-! ### The casts (R115, R116) -/

theorem wrap16_congr (y : Int) : (wrap16 y - y) % 65536 = 0 := by
  unfold wrap16
  omega

theorem eq_wrap16 {y z : Int} (h₁ : -32768 ≤ z) (h₂ : z ≤ 32767) (h : (z - y) % 65536 = 0) : z = wrap16 y := by
  unfold wrap16
  omega

/-- The wrap is the low 16 bits read as signed: that value is in range and congruent to `y`. -/
theorem wrap16_eq_toInt_ofInt (y : Int) : wrap16 y = (BitVec.ofInt 16 y).toInt := by
  have hr := sext16_range (BitVec.ofInt 16 y)
  refine (eq_wrap16 hr.1 hr.2 ?_).symm
  rw [sext16, BitVec.toInt_ofInt]
  exact Int.emod_eq_zero_of_dvd (Int.dvd_bmod_sub_self)

theorem sat16_of_gt {y : Int} (h : 32767 < y) : sat16 y = 32767 := if_pos h

theorem sat16_of_lt {y : Int} (h : y < -32768) : sat16 y = -32768 :=
  (if_neg (by omega)).trans (if_pos h)

/-! ### The numerators at the ends of a gain's range (R110, R118) -/

@[simp] theorem gain_zero : gain 0 = 0 := rfl

@[simp] theorem gain_one : gain 32768 = one := rfl

theorem blendNum_of_mix_zero {c : ConfigRegs} (h : c.mix = 0) (dry wet : Int) : blendNum c dry wet = dry * one := by
  rw [blendNum, h, gain_zero, sub_zero, mul_zero, add_zero]

theorem blendNum_of_mix_one {c : ConfigRegs} (h : c.mix = 32768) (dry wet : Int) : blendNum c dry wet = wet * one := by
  rw [blendNum, h, gain_one, sub_self, mul_zero, zero_add]

theorem updateNum_of_feedback_zero {c : ConfigRegs} (h : c.feedback = 0) (old dry : Int) :
    updateNum c old dry = dry * one := by
  rw [updateNum, h, gain_zero, mul_zero, zero_add]

theorem updateNum_of_feedback_one {c : ConfigRegs} (h : c.feedback = 32768) (old dry : Int) :
    updateNum c old dry = (old + dry) * one := by
  rw [updateNum, h, gain_one, add_mul]

theorem distNum_of_volume_zero {c : ConfigRegs} (h : c.volume = 0) (s : Int) : distNum c s = 0 * one := by
  rw [distNum, h, gain_zero, mul_zero, zero_mul]

theorem distNum_of_volume_one {c : ConfigRegs} (h : c.volume = 32768) (s : Int) : distNum c s = s * one := by
  rw [distNum, h, gain_one]

/-! ### The formulas at a numerator that is a multiple of `ONE` (R120) -/

theorem blend_of_exact (p : Params) {c : ConfigRegs} {dry wet k : Int} (h : blendNum c dry wet = k * one) :
    blend p c dry wet = cast16 c.sat k := by
  rw [blend, h, quant_mul_one]

theorem update_of_exact (p : Params) {c : ConfigRegs} {old dry k : Int} (h : updateNum c old dry = k * one) :
    update p c old dry = cast16 c.sat k := by
  rw [update, h, quant_mul_one]

theorem distort_of_exact (p : Params) {c : ConfigRegs} {s k : Int} (h : distNum c s = k * one) :
    distort p c s = cast16 c.sat k := by
  rw [distort, h, rne_mul_one]

/-! ### The ranges of the numerators (R119, R121) -/

/-- The weights `ONE - M` and `M` are non-negative and sum to `ONE`, so a lower bound of both inputs stays one. -/
theorem le_blendNum {c : ConfigRegs} (hm : gain c.mix ≤ one) {k dry wet : Int} (hd : k ≤ dry) (hw : k ≤ wet) :
    k * one ≤ blendNum c dry wet :=
  calc k * one = k * (one - gain c.mix) + k * gain c.mix := by ring
    _ ≤ dry * (one - gain c.mix) + wet * gain c.mix :=
      add_le_add (mul_le_mul_of_nonneg_right hd (sub_nonneg.2 hm)) (mul_le_mul_of_nonneg_right hw (gain_nonneg _))

/-- The same for an upper bound of both inputs. -/
theorem blendNum_le {c : ConfigRegs} (hm : gain c.mix ≤ one) {k dry wet : Int} (hd : dry ≤ k) (hw : wet ≤ k) :
    blendNum c dry wet ≤ k * one :=
  calc blendNum c dry wet ≤ k * (one - gain c.mix) + k * gain c.mix :=
      add_le_add (mul_le_mul_of_nonneg_right hd (sub_nonneg.2 hm)) (mul_le_mul_of_nonneg_right hw (gain_nonneg _))
    _ = k * one := by ring

theorem abs_blendNum_le {c : ConfigRegs} (hm : gain c.mix ≤ one) {dry wet : Int} (hd : |dry| ≤ 32768)
    (hw : |wet| ≤ 32768) : |blendNum c dry wet| ≤ 32768 * one := by
  rw [abs_le] at *
  exact ⟨by simpa using le_blendNum hm hd.1 hw.1, blendNum_le hm hd.2 hw.2⟩

/-- A sample times a gain. -/
theorem abs_mul_gain_le {a b : Int} {g : RegWord} (ha : |a| ≤ 32768) (hg : gain g ≤ b) : |a * gain g| ≤ 32768 * b := by
  rw [abs_mul, abs_of_nonneg (gain_nonneg g)]
  exact mul_le_mul ha hg (gain_nonneg g) (by norm_num)

end Sys2Proof.Machine

namespace Sys2Proof.Proofs

open Sys2Proof.Machine

/-- Settles O52: at each of these gains the numerator is a multiple of `ONE`. -/
theorem arithmeticLaws : Obligations.ArithmeticLaws := by
  intro p c a b ha ha' hb hb'
  have hca := cast16_of_range c.sat ha ha'
  have hcb := cast16_of_range c.sat hb hb'
  have hc0 : cast16 c.sat 0 = 0 := cast16_of_range c.sat (by decide) (by decide)
  exact ⟨fun h => (blend_of_exact p (blendNum_of_mix_zero h a b)).trans hca,
    fun h => (blend_of_exact p (blendNum_of_mix_one h a b)).trans hcb,
    fun h => (update_of_exact p (updateNum_of_feedback_zero h a b)).trans hcb,
    fun h => (distort_of_exact p (distNum_of_volume_one h a)).trans hca,
    fun h => (distort_of_exact p (distNum_of_volume_zero h a)).trans hc0,
    fun h => update_of_exact p (updateNum_of_feedback_one h a b)⟩

/-- Settles O53: fraction removal keeps the bounds of the numerator, and between two sample values the cast does
nothing. -/
theorem blendNeverOverflows : Obligations.BlendNeverOverflows := by
  intro p c dry wet hmix hd hd' hw hw'
  have hm : gain c.mix ≤ one := Int.ofNat_le.2 hmix
  have hlo := le_quant p.castRnd (le_blendNum hm (min_le_left dry wet) (min_le_right dry wet))
  have hhi := quant_le p.castRnd (blendNum_le hm (le_max_left dry wet) (le_max_right dry wet))
  have hcast : blend p c dry wet = quant p.castRnd (blendNum c dry wet) :=
    cast16_of_range c.sat ((le_min hd hw).trans hlo) (hhi.trans (max_le hd' hw'))
  exact ⟨hcast ▸ hlo, hcast ▸ hhi, hcast⟩

/-- Settles O48: the wrap is in range and congruent to its argument, and only one integer is. -/
theorem wrap16IsTheTwosComplementWrap : Obligations.Wrap16IsTheTwosComplementWrap := by
  refine ⟨fun y => ⟨rfl, ?_, fun z => eq_wrap16, wrap16_eq_toInt_ofInt y⟩, by decide⟩
  exact ⟨(wrap16_range y).1, (wrap16_range y).2, wrap16_congr y⟩

/-- Settles O49: bit 2 of `CTRL` selects the cast. -/
theorem castFollowsTheSatBit : Obligations.CastFollowsTheSatBit := by
  refine fun c y => ⟨fun h => ?_, fun h => ?_, cast16_of_range c.sat⟩
  · have hs : ¬ c.sat = true := by rw [c.sat_iff]; omega
    exact if_neg hs
  · have hs : cast16 c.sat y = sat16 y := if_pos (c.sat_iff.2 h)
    exact hs ▸ ⟨sat16_of_gt, sat16_of_lt⟩

/-- Settles O50: on its non-negative half truncation is the floor, and it is symmetric. -/
theorem quantRemovesTheFraction : Obligations.QuantRemovesTheFraction := by
  have hfloor : ∀ num : Int, num / 32768 * 32768 ≤ num ∧ num < (num / 32768 + 1) * 32768 := fun num =>
    ⟨Int.ediv_mul_le num (by decide), Int.lt_ediv_add_one_mul_self num (by decide)⟩
  refine ⟨fun num h => ?_, hfloor, fun _ => rfl, quant_mul_one, by decide⟩
  rw [quant_trunc_neg, quant_trunc_of_nonneg h]
  exact ⟨mul_nonneg (Int.ediv_nonneg h (by decide)) (by decide), (hfloor num).1, (hfloor num).2, rfl⟩

/-- Settles O51: half a unit is the largest distance of the rounded value, so it is nearest; the tie rules by their
equations. -/
theorem rneIsTheNearestInteger : Obligations.RneIsTheNearestInteger := by
  refine ⟨fun t num => ⟨?_, abs_rne_sub_le_abs_sub t num, fun h => ?_, rne_of_lt_half t, rne_of_half_lt t,
    fun h => ⟨rne_even_of_tie h, fun hp => ?_, fun hn => ?_⟩⟩, by decide⟩
  · have := abs_rne_sub_le t num
    omega
  · exact ⟨by rw [rne_even_of_tie h]; omega, abs_lt_rne_away_of_tie h⟩
  · exact (rne_away_of_tie h).trans (if_pos hp)
  · exact (rne_away_of_tie h).trans (if_neg hn.not_gt)

/-- Settles O54: each numerator is a sum of samples times gains, bounded factor by factor. -/
theorem accumulatorWidths : Obligations.AccumulatorWidths := by
  intro c a b ha ha' hb hb'
  have hA : |a| ≤ 32768 := abs_le.2 ⟨ha, by omega⟩
  have hB : |b| ≤ 32768 := abs_le.2 ⟨hb, by omega⟩
  have hdist : |distNum c a| ≤ 32768 * (2 ^ 24 - 1) := abs_mul_gain_le hA (Int.le_sub_one_of_lt (gain_lt c.volume))
  refine ⟨fun h => ?_, fun h => ?_, ?_, hdist, hdist.trans_lt (by norm_num)⟩
  · exact abs_blendNum_le (Int.ofNat_le.2 h) hA hB
  · have hF := abs_le.1 (abs_mul_gain_le hA (b := 32768) (Int.ofNat_le.2 h))
    simp only [updateNum, one]
    omega
  · rintro h rfl rfl
    have hF : gain c.feedback = 32768 := congrArg Nat.cast h
    rw [updateNum, hF]
    norm_num

end Sys2Proof.Proofs
end

section
/-! The configuration and system commands (41_config_commands.md): which register a `WRC` writes, what a `RDR` answers,
and the checks of `INIT` as one chain, from which its success and its fault entries follow. -/

namespace Sys2Proof.Machine

open Sys2Proof.Claims

/-! ### The register file after a write -/

/-- Every register of the written file: the one of the number, and the seven others as they were (R132). -/
theorem ConfigRegs.write_eq (c : ConfigRegs) (r : RegNum) (v : RegWord) :
    c.write r v =
      { ctrl := if r.toNat = 0 then v else c.ctrl
        sampleRate := if r.toNat = 1 then v else c.sampleRate
        blockSize := if r.toNat = 2 then v else c.blockSize
        cap := if r.toNat = 3 then v else c.cap
        dlen := if r.toNat = 4 then v else c.dlen
        feedback := if r.toNat = 5 then v else c.feedback
        mix := if r.toNat = 6 then v else c.mix
        volume := if r.toNat = 7 then v else c.volume } := by
  unfold ConfigRegs.write
  generalize r.toNat = k
  split
  case h_9 =>
    simp only [imp_false] at *
    simp only [*, if_false]
  all_goals rfl

/-- `STATUS` is no view of the configuration (R31). -/
@[simp] theorem State.status_setCfg (s : State) (c : ConfigRegs) : (s.setCfg c).status = s.status := rfl

/-- A register read after its own write answers the value (R132). -/
theorem State.readReg_setCfg_write_same (s : State) {r : RegNum} (hr : r.toNat ≤ 7) (v : RegWord) :
    (s.setCfg (s.cfg.write r v)).readReg r = some (v.setWidth 32) := by
  rw [State.readReg, ConfigRegs.write]
  generalize r.toNat = k at *
  interval_cases k <;> rfl

/-- A register write leaves the read of every other number as it was (R132). -/
theorem State.readReg_setCfg_write_other (s : State) {r r' : RegNum} (h : r' ≠ r) (v : RegWord) :
    (s.setCfg (s.cfg.write r v)).readReg r' = s.readReg r' := by
  have hne : r.toNat ≠ r'.toNat := fun e => h (BitVec.eq_of_toNat_eq e.symm)
  rw [ConfigRegs.write_eq, State.readReg, State.readReg]
  generalize r'.toNat = k at *
  split <;> simp [hne]

/-! ### `WRC` and `RDR` -/

theorem exec_wrc_config {s : State} (hp : s.phase = .config) {r : RegNum} (hr : r.toNat ≤ 7) (v : RegWord) :
    exec (.wrc r v) s = .next (s.popCmd.setCfg (s.cfg.write r v)) := by
  show execWrc r v s = _
  rw [execWrc, if_neg (not_lt.2 hr), inPhase_legal (by decide) hp]

theorem exec_rdr_of_readReg {s : State} {r : RegNum} {w : CmdWord} (h : s.readReg r = some w) :
    exec (.rdr r) s = .next (s.popCmd.pushRsp w) := by
  show execRdr r s = _
  simp only [execRdr, h]

/-! ### The checks of `INIT` -/

theorem one_lt_gain_iff (g : RegWord) : one < gain g ↔ g.toNat > 32768 := Int.ofNat_lt (n := 32768)

theorem ConfigRegs.ctrlReserved_eq_zero_iff (c : ConfigRegs) : c.ctrlReserved = 0 ↔ c.ctrl.toNat / 8 = 0 := by
  rw [← c.ctrlReserved_toNat]
  exact BitVec.toNat_inj.symm

/-- The eight checks as one chain over the register values, the last five with the kind they are made for (R135). -/
theorem validate_eq (p : Params) (c : ConfigRegs) :
    validate p c =
      if c.sampleRate = 0 then some .badSampleRate
      else if c.blockSize = 0 then some .badBlockSize
      else if c.ctrl.toNat / 8 ≠ 0 then some .reservedCtrl
      else if c.kind = .delay ∧ c.dlen.toNat > c.cap.toNat then some .delayExceedsHeadroom
      else if c.kind = .delay ∧ c.dlen.toNat < c.blockSize.toNat then some .bufferTooSmallForBlock
      else if c.kind = .delay ∧ c.cap.toNat > p.cmax then some .capacityExceedsStorage
      else if c.kind = .delay ∧ c.feedback.toNat > 32768 then some .badFeedback
      else if c.kind = .delay ∧ c.mix.toNat > 32768 then some .badMix
      else none := by
  simp only [validate, one_lt_gain_iff, ne_eq, c.ctrlReserved_eq_zero_iff]
  by_cases hk : c.kind = .delay
  · simp [hk]
  · simp [hk]

/-- A configuration inside all limits passes, the limits of the delay line asked of that kind only (R135, R137). -/
theorem validate_eq_none {p : Params} {c : ConfigRegs} (hrate : c.sampleRate ≠ 0) (hblock : c.blockSize ≠ 0)
    (hctrl : c.ctrl.toNat / 8 = 0)
    (hdelay : c.kind = .delay → c.dlen.toNat ≤ c.cap.toNat ∧ c.blockSize.toNat ≤ c.dlen.toNat ∧
      c.cap.toNat ≤ p.cmax ∧ c.feedback.toNat ≤ 32768 ∧ c.mix.toNat ≤ 32768) : validate p c = none := by
  rw [validate_eq, if_neg hrate, if_neg hblock, if_neg (not_not.2 hctrl)]
  by_cases hk : c.kind = .delay
  · obtain ⟨hcap, hdlen, hcmax, hfeedback, hmix⟩ := hdelay hk
    simp [hcap.not_gt, hdlen.not_gt, hcmax.not_gt, hfeedback.not_gt, hmix.not_gt]
  · simp [hk]

/-- Validation raises a `ConfigError` and nothing else (R212). -/
theorem kind_of_validate {p : Params} {c : ConfigRegs} {x : Cause} (h : validate p c = some x) :
    x.kind = .configError := by
  unfold validate at h
  split_ifs at h <;> cases h <;> rfl

/-! ### `INIT` in CONFIG -/

theorem exec_init_of_validate_none {s : State} (hp : s.phase = .config) (hv : validate s.params s.cfg = none) :
    exec .init s = .next (((s.popCmd.setBuf (initBuf s)).setCursor 0).setPhase .ready) := by
  show execInit s = _
  rw [execInit, inPhase_legal (by decide) hp, hv]

/-- A failing check, as the record of its fault entry (R134, R212, R222). -/
theorem exec_init_of_validate_some {s : State} {x : Cause} (hp : s.phase = .config)
    (hv : validate s.params s.cfg = some x) :
    exec .init s = .next (faulted s 0x30000000 .configError x.sub (configInfo x)) := by
  show execInit s = _
  rw [execInit, inPhase_legal (by decide) hp, hv, ← kind_of_validate hv]
  rfl

/-- What `INIT` in CONFIG does for each result of its validation. -/
def InitReports (s : State) : Option Cause → Prop
  | some x => exec .init s = .next (faulted s 0x30000000 .configError x.sub (configInfo x))
  | none => ∃ t, exec .init s = .next t ∧ t.phase = .ready

theorem initReports_validate {s : State} (hp : s.phase = .config) : InitReports s (validate s.params s.cfg) := by
  cases hv : validate s.params s.cfg with
  | some x => exact exec_init_of_validate_some hp hv
  | none => exact ⟨_, exec_init_of_validate_none hp hv, rfl⟩

end Sys2Proof.Machine

namespace Sys2Proof.Proofs

open Sys2Proof.Machine

/-- Settles O15, by read after write in the register file. -/
theorem wrcWritesExactlyItsRegister : Obligations.WrcWritesExactlyItsRegister := by
  intro s r v hp hr
  exact ⟨s.cfg.write r v, exec_wrc_config hp hr v, s.popCmd.readReg_setCfg_write_same hr v,
    fun _ hne => s.popCmd.readReg_setCfg_write_other hne v⟩

/-- Settles O21: the checks pass, and zeroing is known address by address. -/
theorem initConstructsTheDelayLine : Obligations.InitConstructsTheDelayLine := by
  intro s hp hk hrate hblock hctrl hcap hdlen hcmax hfeedback hmix
  have hv : validate s.params s.cfg = none :=
    validate_eq_none hrate hblock hctrl fun _ => ⟨hcap, hdlen, hcmax, hfeedback, hmix⟩
  have hbuf : initBuf s = s.buf.zeroBelow s.cfg.cap.toNat := if_pos hk
  refine ⟨initBuf s, exec_init_of_validate_none hp hv, fun a ha => ?_, fun a ha => ?_⟩
  · rw [hbuf, Memory.read_zeroBelow, if_pos ha]
  · rw [hbuf, Memory.read_zeroBelow, if_neg (not_lt.2 ha)]

/-- Settles O22: no check of the delay line is made, and the buffer is the old one. -/
theorem initConstructsTheOtherKinds : Obligations.InitConstructsTheOtherKinds := by
  intro s hp hk hrate hblock hctrl
  have hv : validate s.params s.cfg = none := validate_eq_none hrate hblock hctrl fun h => absurd h hk
  have hbuf : initBuf s = s.buf := if_neg hk
  rw [exec_init_of_validate_none hp hv, hbuf]
  rfl

/-- Settles O23: the report of each end of the chain of checks. -/
theorem initReportsTheFirstFailingCheck : Obligations.InitReportsTheFirstFailingCheck := by
  intro s hp
  have h := initReports_validate hp
  rw [validate_eq] at h
  simp only [apply_ite (InitReports s)] at h
  exact h

/-- Settles O14: a word of opcode 0 whose other fields are zero too is the zero word. -/
theorem nopOnlyLeavesTheQueue : Obligations.NopOnlyLeavesTheQueue := by
  refine ⟨fun s => rfl, rfl, fun w ho hw => decode_error_iff.2 (.inr ⟨rfl, .inl ⟨ho, ?_⟩⟩)⟩
  rintro ⟨hreg, himm⟩
  have hlow : lowField w = 0 := by rw [← reg_append_imm, hreg, himm]; rfl
  exact hw (encode_eq_of_fields (i := .nop) (congrArg BitVec.toNat ho) hlow).symm

/-- Settles O16: the numbers up to 12 have a register, and each read is by evaluation. -/
theorem rdrAppendsTheRegister : Obligations.RdrAppendsTheRegister := by
  refine fun s => ⟨fun r hr => ?_, rfl, rfl, rfl, rfl, rfl, rfl, rfl, rfl, rfl, rfl, rfl, rfl, rfl⟩
  obtain ⟨w, hw⟩ := s.readReg_some hr
  exact ⟨w, hw, exec_rdr_of_readReg hw⟩

/-- Settles O24, by evaluation. -/
theorem rstStartsANewRun : Obligations.RstStartsANewRun := fun _ => rfl

end Sys2Proof.Proofs
end

section
/-! The stream commands (42_stream_commands.md): the fault entry of each check of `PROC` as its record, the transform of
a block of no samples, and `OPEN` and `END` in their own phase. -/

namespace Sys2Proof

/-- The first eight bits of an `OPEN` word are its opcode and a zero register number (R81). -/
theorem encode_openStream (rate : BitVec 24) : encode (.openStream rate) = 0x40#8 ++ rate :=
  (BitVec.append_assoc (x₁ := 4#4) (x₂ := 0#4) (x₃ := rate)).symm

/-- The first eight bits of a stereo `PROC` word are its opcode, the reserved zeros and the channel bit (R81). -/
theorem encode_proc_stereo (n : BitVec 24) : encode (.proc 1 n) = 0x51#8 ++ n :=
  (BitVec.append_assoc (x₁ := 5#4) (x₂ := 1#4) (x₃ := n)).symm

end Sys2Proof

namespace Sys2Proof.Machine

open Sys2Proof.Claims

/-! ### What a fault entry records of an operand -/

/-- The low 20 bits of an operand (R213, R216). -/
theorem low20_eq (x : BitVec 24) : low20 x = BitVec.ofNat 20 x.toNat := rfl

/-- The number of the kind is `CTRL[1:0]` (R22). -/
theorem ConfigRegs.kind_num (c : ConfigRegs) : c.kind.num = BitVec.ofNat 20 (c.ctrl.toNat % 4) := by
  rw [← c.kindBits_toNat, ConfigRegs.kind]
  generalize c.ctrl.extractLsb' 0 2 = b
  revert b
  decide

/-! ### The checks of `PROC` -/

theorem EffectKind.exists_transform {k : EffectKind} (h : k ≠ .reverb) : ∃ tr, k.transform = some tr :=
  Option.ne_none_iff_exists'.1 (mt k.transform_eq_none_iff.1 h)

/-- The first check: a channel bit that is not the kind's (R153, R214). -/
theorem procChecks_shape {ch : BitVec 1} {s : State} (h : ch ≠ s.cfg.kind.cap) (n : BitVec 24) :
    procChecks ch n s = .error (if ch = 1 then .stereoIntoMono else .monoIntoStereo, s.cfg.kind.num) := if_pos h

/-- The second check: the kind without a transform (R153, R193, R215). -/
theorem procChecks_reverb {s : State} (hk : s.cfg.kind = .reverb) (n : BitVec 24) :
    procChecks 1 n s = .error (.reverb, 2) := by
  rw [procChecks, hk]
  rfl

/-- The third check: a block longer than `BLOCK_SIZE` (R153, R216). -/
theorem procChecks_tooLong {n : BitVec 24} {s : State} (hk : s.cfg.kind ≠ .reverb)
    (hn : s.cfg.blockSize.toNat < n.toNat) : procChecks 0 n s = .error (.blockTooLong, low20 n) := by
  obtain ⟨tr, htr⟩ := EffectKind.exists_transform hk
  simp only [procChecks, EffectKind.cap_of_ne_reverb hk, htr, ne_eq, not_true_eq_false, if_false, if_pos hn]

/-- A failing check in STREAM, as the record of its fault entry: no input is consumed (R153, R222). -/
theorem exec_proc_of_procChecks_error {ch : BitVec 1} {n : BitVec 24} {s : State} {c : Cause} {info : BitVec 20}
    (hp : s.phase = .stream) (hc : procChecks ch n s = .error (c, info)) :
    exec (.proc ch n) s = .next (faulted s (encode (.proc ch n)) c.kind c.sub info) := by
  show execProc ch n s = _
  rw [execProc, inPhase_legal (by decide) hp, hc]
  rfl

/-! ### A block of no samples -/

/-- The cursor of a delay line stays where it is after no samples (43_delayline.md R175, R177 (a)). -/
theorem nextCursor_zero {cur : RegWord} {d : Nat} (h : cur.toNat < d) : nextCursor cur 0 d = cur := by
  rw [nextCursor, Nat.add_zero, Nat.mod_eq_of_lt h, BitVec.ofNat_toNat, BitVec.setWidth_eq]

/-- A constructed delay line answers no samples with no samples and no write (R177 (a)). -/
theorem DelayReady.delayTransform_nil {s : State} (h : DelayReady s) : delayTransform [] s = .ok ([], s) := by
  rw [delayTransform, if_neg h.dlen_pos.ne']
  simp only [delayLoop_nil, List.length_nil, nextCursor_zero h.cursorInLine]
  rfl

/-- Under the invariant the transform of a stream's kind leaves a block of no samples and the state alone (R154). -/
theorem StateInv.runTransform_nil {s : State} (h : StateInv s) (hp : s.phase = .stream) {tr : Transform}
    (htr : s.cfg.kind.transform = some tr) : runTransform tr [] s = .ok ([], s) := by
  cases tr with
  | distortion | passthroughStereo => rfl
  | delay => exact (h.delayReady (.inr hp) (EffectKind.transform_eq_delay htr)).delayTransform_nil

end Sys2Proof.Machine

namespace Sys2Proof.Proofs

open Sys2Proof.Machine Sys2Proof.Claims

/-- Settles O29: the first check that fails is the fault entry. -/
theorem procChecksShapeThenReverbThenLength : Obligations.ProcChecksShapeThenReverbThenLength := by
  intro s n hp
  refine ⟨fun hk => ?stereo, fun hk => ⟨?mono, ?reverb⟩, fun hk hn => ?long⟩
  case stereo =>
    have hch : 1 ≠ s.cfg.kind.cap := by rw [EffectKind.cap_of_ne_reverb hk]; decide
    rw [← encode_proc_stereo, ← s.cfg.kind_num]
    exact exec_proc_of_procChecks_error hp (procChecks_shape hch n)
  case mono =>
    have hch : 0 ≠ s.cfg.kind.cap := by rw [hk]; decide
    have hc := procChecks_shape hch n
    rw [hk] at hc
    rw [← encode_proc_mono]
    exact exec_proc_of_procChecks_error hp hc
  case reverb =>
    rw [← encode_proc_stereo]
    exact exec_proc_of_procChecks_error hp (procChecks_reverb hk n)
  case long =>
    rw [← encode_proc_mono, ← low20_eq]
    exact exec_proc_of_procChecks_error hp (procChecks_tooLong hk hn)

/-- Settles O30: the hold with its passed checks and its word count written out for a mono block. -/
theorem procIsHeldExactlyWhileSamplesAreMissing : Obligations.ProcIsHeldExactlyWhileSamplesAreMissing := by
  intro s ch n
  show execProc ch n s = _ ↔ _
  rw [execProc_held_iff, procChecks_pass_iff]
  constructor
  · rintro ⟨hp, ⟨rfl, hk, hn⟩, hl⟩
    exact ⟨hp, rfl, hk, hn, by rwa [blockWords_mono] at hl⟩
  · rintro ⟨hp, rfl, hk, hn, hl⟩
    exact ⟨hp, ⟨rfl, hk, hn⟩, by rwa [blockWords_mono]⟩

/-- Settles O34: the checks pass, no samples are popped, and the transform of none leaves the state alone. -/
theorem emptyBlockChangesNothing : Obligations.EmptyBlockChangesNothing := by
  intro s h hp hk
  obtain ⟨tr, htr⟩ := EffectKind.exists_transform hk
  have hrun : execProc 0 0 s = .next (s.popCmd.pushOut []) :=
    execProc_run hp (EffectKind.cap_of_ne_reverb hk) htr (Nat.zero_le _) (Nat.zero_le _)
      (h.popCmd.runTransform_nil hp htr)
  have hnone : s.popCmd.pushOut [] = dropped s := by
    rw [State.pushOut, List.append_nil]
    rfl
  exact hrun.trans (congrArg _ hnone)

/-- Settles O27, by the phase check and the equal rate. -/
theorem openWithTheConfiguredRateStartsTheStream : Obligations.OpenWithTheConfiguredRateStartsTheStream := by
  intro s rate hp hr
  show execOpen rate s = _
  rw [execOpen, inPhase_legal (by decide) hp, if_pos hr]
  rfl

/-- Settles O28, by the phase check and the unequal rate. -/
theorem openWithAnotherRateFaults : Obligations.OpenWithAnotherRateFaults := by
  intro s rate hp hr
  show execOpen rate s = _
  rw [← encode_openStream, ← low20_eq, execOpen, inPhase_legal (by decide) hp, if_neg hr]
  rfl

/-- Settles O36: in STREAM the phase check passes, and the body of `END` writes the phase alone. -/
theorem endClosesTheStream : Obligations.EndClosesTheStream :=
  fun s hp => show execEnd s = _ from inPhase_legal (by decide) hp

end Sys2Proof.Proofs
end

section
/-! The delay line block by block (43_delayline.md R171 to R176, R179): the addresses of a block are distinct, so the
loop is its block form; blocks run one after the other are one loop over all their samples, whatever the cut. -/

namespace Sys2Proof.Machine

variable {p : Params} {c : ConfigRegs} {cur d : Nat}

/-! ### The addresses of a block (R172) -/

/-- Fewer than `D` steps around the delay line never come back to the same word. -/
theorem add_mod_inj {i j : Nat} (hi : i < d) (hj : j < d) (h : (cur + i) % d = (cur + j) % d) : i = j :=
  (Nat.ModEq.add_left_cancel' cur h).eq_of_lt_of_lt hi hj

theorem add_succ_mod_ne (a : Nat) {k : Nat} (hk : k + 1 < d) : (a + (k + 1)) % d ≠ a % d := fun h =>
  k.succ_ne_zero (add_mod_inj (j := 0) hk (Nat.zero_lt_of_lt hk) h)

/-- The span address is the modulo address: the first span does not reach the wrap point, the second lies behind it. -/
theorem spanAddr_eq_mod {n i : Nat} (hcur : cur < d) (hn : n ≤ d) (hi : i < n) :
    spanAddr cur d n i = (cur + i) % d := by
  unfold spanAddr firstSpan
  split
  · rw [Nat.mod_eq_of_lt (by omega)]
  · rw [Nat.mod_eq_sub_mod (by omega), Nat.mod_eq_of_lt (by omega)]
    omega

/-! ### The loop in block form (R174) -/

/-- Every sample of a block no longer than the delay line finds the word that stood at its address before the block, and
no later sample of the block overwrites its update. -/
theorem delayLoop_block {i : Nat} {xs ys : List Sample} {m m' : Memory}
    (h : delayLoop p c cur d i xs m = .ok (ys, m')) (hd : xs.length ≤ d) {j : Nat} {x : Sample}
    (hx : xs[j]? = some x) :
    ∃ wet, m.read ((cur + i + j) % d) = some wet ∧ ys[j]? = some (blendWord p c x wet) ∧
      m'.read ((cur + i + j) % d) = some (updateWord p c wet x) := by
  induction xs generalizing i ys m j with
  | nil => simp at hx
  | cons x₀ xs ih =>
    obtain ⟨wet, zs, -, hread, hl, rfl⟩ := delayLoop_cons_ok.1 h
    rw [List.length_cons] at hd
    cases j with
    | zero =>
      obtain rfl : x₀ = x := Option.some.inj hx
      have hkept : ∀ k < xs.length, (cur + i) % d ≠ (cur + (i + 1 + k)) % d := fun k hk => by
        rw [show cur + (i + 1 + k) = cur + i + (k + 1) by omega]
        exact (add_succ_mod_ne _ (by omega)).symm
      exact ⟨wet, hread, rfl, (delayLoop_read_other hl hkept).trans (Memory.read_write_same _ _ _)⟩
    | succ j =>
      rw [List.getElem?_cons_succ] at hx
      have hj : j < xs.length := (List.getElem?_eq_some_iff.1 hx).1
      obtain ⟨w, hw, hy, hm⟩ := ih hl (by omega) hx
      rw [show cur + (i + 1) + j = cur + i + (j + 1) by omega] at hw hm
      exact ⟨w, (Memory.read_write_other m _ (add_succ_mod_ne _ (by omega))).symm.trans hw, hy, hm⟩

/-- The loop starts at the cursor alone: `k` samples into a block is the same as a cursor `k` words further on. -/
theorem delayLoop_shift (k i : Nat) (xs : List Sample) (m : Memory) :
    delayLoop p c ((cur + k) % d) d i xs m = delayLoop p c cur d (k + i) xs m := by
  induction xs generalizing i m with
  | nil => rfl
  | cons x xs ih =>
    have haddr : ((cur + k) % d + i) % d = (cur + (k + i)) % d := by rw [Nat.mod_add_mod, Nat.add_assoc]
    simp only [delayLoop, haddr, ih, Nat.add_assoc]

/-! ### The cursor (R175) -/

theorem nextCursor_toNat (cur : RegWord) (n : Nat) {len : RegWord} (hd : 0 < len.toNat) :
    (nextCursor cur n len.toNat).toNat = (cur.toNat + n) % len.toNat := by
  have hlt : (cur.toNat + n) % len.toNat < len.toNat := Nat.mod_lt _ hd
  rw [nextCursor, BitVec.toNat_ofNat, Nat.mod_eq_of_lt (hlt.trans len.isLt)]

theorem nextCursor_nextCursor (cur : RegWord) (a b : Nat) {len : RegWord} (hd : 0 < len.toNat) :
    nextCursor (nextCursor cur a len.toNat) b len.toNat = nextCursor cur (a + b) len.toNat := by
  rw [nextCursor, nextCursor_toNat cur a hd, Nat.mod_add_mod, Nat.add_assoc]
  rfl

/-! ### A run of blocks is one loop (R179) -/

/-- The state after `k` blocks of `j` samples in all, with the output `y` and the buffer `m` (R157, R176). -/
def State.afterBlocks (s : State) (k j : Nat) (y : List Sample) (m : Memory) : State :=
  { s with
    cmdQ := s.cmdQ.drop k
    inQ := s.inQ.drop j
    outT := s.outT ++ y
    buf := m
    cursor := nextCursor s.cursor j s.cfg.dlen.toNat }

theorem State.afterBlocks_zero {s : State} (h : DelayReady s) : s.afterBlocks 0 0 [] s.buf = s := by
  simp [State.afterBlocks, nextCursor_zero h.cursorInLine]

theorem State.afterBlocks_afterBlocks {s : State} (hd : 0 < s.cfg.dlen.toNat) (k k' j j' : Nat) (y y' : List Sample)
    (m m' : Memory) :
    (s.afterBlocks k j y m).afterBlocks k' j' y' m' = s.afterBlocks (k + k') (j + j') (y ++ y') m' := by
  simp [State.afterBlocks, nextCursor_nextCursor _ _ _ hd]

/-- The loop of R171 over the first `j` samples of `IN_Q`, from the state's buffer and cursor. -/
def State.runLoop (s : State) (j : Nat) : Except Fault (List Sample × Memory) :=
  delayLoop s.params s.cfg s.cursor.toNat s.cfg.dlen.toNat 0 (s.inQ.take j) s.buf

theorem DelayReady.afterBlocks {s : State} (h : DelayReady s) {j : Nat} {y : List Sample} {m : Memory}
    (hl : s.runLoop j = .ok (y, m)) (k : Nat) : DelayReady (s.afterBlocks k j y m) :=
  (h.afterLoop j hl).congr rfl rfl rfl rfl

/-- The loop over `j` samples and then the loop over `j'` more is the loop over all of them. -/
theorem runLoop_add {s : State} (hd : 0 < s.cfg.dlen.toNat) {j j' : Nat} (hj : j ≤ s.inQ.length) {y y' : List Sample}
    {m m' : Memory} (hl : s.runLoop j = .ok (y, m)) {k : Nat}
    (hl' : (s.afterBlocks k j y m).runLoop j' = .ok (y', m')) : s.runLoop (j + j') = .ok (y ++ y', m') := by
  have hrest : delayLoop s.params s.cfg s.cursor.toNat s.cfg.dlen.toNat (0 + (s.inQ.take j).length)
      ((s.inQ.drop j).take j') m = .ok (y', m') := by
    rw [List.length_take_of_le hj, Nat.add_comm, ← delayLoop_shift, ← nextCursor_toNat _ _ hd]
    exact hl'
  rw [State.runLoop, List.take_add]
  exact delayLoop_append hl hrest

/-- A block of a constructed delay line that has its samples runs the loop (R152, R171). -/
theorem DelayReady.exec_proc {s : State} (h : DelayReady s) (hp : s.phase = .stream) (hk : s.cfg.kind = .delay)
    {n : BitVec 24} (hn : n.toNat ≤ s.cfg.blockSize.toNat) (hq : n.toNat ≤ s.inQ.length) :
    ∃ y m, s.runLoop n.toNat = .ok (y, m) ∧ exec (.proc 0 n) s = .next (s.afterBlocks 1 n.toNat y m) := by
  obtain ⟨⟨y, s'⟩, hr⟩ := (h.congr rfl rfl rfl rfl : DelayReady (s.popCmd.popIn n.toNat)).delayTransform_ok
    (s.inQ.take n.toNat)
  have hrun : exec (.proc 0 n) s = .next (s'.pushOut y) :=
    execProc_run (tr := .delay) hp (by rw [hk]; rfl) (by rw [hk]; rfl) hn hq hr
  obtain ⟨he, -⟩ | ⟨he, -⟩ | ⟨-, -, m, hl, rfl⟩ := runTransform_ok (tr := .delay) hr
  · cases he
  · cases he
  · refine ⟨y, m, hl, hrun.trans ?_⟩
    rw [List.length_take_of_le hq, State.afterBlocks, List.drop_one]
    rfl

/-- Legal blocks of a constructed delay line complete, and what they leave is one loop over all their samples. -/
theorem DelayReady.procBlocks_eq {s : State} (h : DelayReady s) (hp : s.phase = .stream) (hk : s.cfg.kind = .delay)
    {ns : List (BitVec 24)} (hns : ∀ n ∈ ns, n.toNat ≤ s.cfg.blockSize.toNat) (hq : totalSamples ns ≤ s.inQ.length) :
    ∃ y m, s.runLoop (totalSamples ns) = .ok (y, m) ∧
      procBlocks ns s = .next (s.afterBlocks ns.length (totalSamples ns) y m) := by
  induction ns generalizing s with
  | nil => exact ⟨[], s.buf, rfl, congrArg _ (State.afterBlocks_zero h).symm⟩
  | cons n ns ih =>
    have htotal : totalSamples (n :: ns) = n.toNat + totalSamples ns := rfl
    rw [htotal] at hq ⊢
    obtain ⟨hn, hns⟩ := List.forall_mem_cons.1 hns
    obtain ⟨y, m, hl, he⟩ := h.exec_proc hp hk hn (by omega)
    have hq' : totalSamples ns ≤ (s.inQ.drop n.toNat).length := by rw [List.length_drop]; omega
    obtain ⟨y', m', hl', he'⟩ := ih (h.afterBlocks hl 1) hp hk hns hq'
    refine ⟨y ++ y', m', runLoop_add h.dlen_pos (by omega) hl hl', ?_⟩
    rw [procBlocks, he, List.length_cons, Nat.add_comm ns.length, ← State.afterBlocks_afterBlocks h.dlen_pos]
    exact he'

/-! ### The dry line -/

/-- A sample passes the cast and the output port unchanged in both modes (R114, R117). -/
theorem toPattern_cast16_sext16 (sat : Bool) (u : Sample) : toPattern (cast16 sat (sext16 u)) = u := by
  obtain ⟨hlo, hhi⟩ := sext16_range u
  rw [cast16_of_range sat hlo hhi, toPattern_sext16]

theorem blendWord_of_mix_zero (h : c.mix = 0) (dry wet : Sample) : blendWord p c dry wet = dry := by
  rw [blendWord, blend_of_exact p (blendNum_of_mix_zero h _ _), toPattern_cast16_sext16]

/-- With no mix the loop answers its samples. -/
theorem delayLoop_of_mix_zero (h : c.mix = 0) {i : Nat} {xs ys : List Sample} {m m' : Memory}
    (hl : delayLoop p c cur d i xs m = .ok (ys, m')) : ys = xs := by
  induction xs generalizing i ys m with
  | nil => simpa using delayLoop_length hl
  | cons x xs ih =>
    obtain ⟨wet, zs, -, -, hrest, rfl⟩ := delayLoop_cons_ok.1 hl
    rw [blendWord_of_mix_zero h, ih hrest]

end Sys2Proof.Machine

namespace Sys2Proof.Proofs

open Sys2Proof.Machine

/-- Settles O33: one `PROC` is the loop, and the loop has the block form since a block is no longer than the line. -/
theorem procDelayBlockForm : Obligations.ProcDelayBlockForm := by
  intro s n hp hk h hn hq
  obtain ⟨y, m, hl, he⟩ := h.exec_proc hp hk hn hq
  have hlen : (s.inQ.take n.toNat).length = n.toNat := List.length_take_of_le hq
  refine ⟨y, m, ?_, (delayLoop_length hl).trans hlen, fun i hi => ?_, fun a ha => ?_⟩
  · rw [he, State.afterBlocks, List.drop_one]
    rfl
  · have hx : s.inQ[i]? = some (s.inQ[i]'(by omega)) := List.getElem?_eq_getElem _
    have hfit : (s.inQ.take n.toNat).length ≤ s.cfg.dlen.toNat := by
      rw [hlen]
      exact hn.trans h.blockFits
    obtain ⟨wet, hold, hout, hnew⟩ := delayLoop_block hl hfit ((List.getElem?_take_of_lt hi).trans hx)
    exact ⟨_, wet, hx, hold, hout, hnew⟩
  · refine delayLoop_read_other hl fun j hj => ?_
    rw [Nat.zero_add]
    exact ha j (hlen ▸ hj)

/-- Settles O57: two cuts of the same samples are the same loop. -/
theorem blockCutDoesNotMatter : Obligations.BlockCutDoesNotMatter := by
  intro s ns ms hp hk h hns hms htotal hq
  obtain ⟨y, m, hl, he⟩ := h.procBlocks_eq hp hk hns hq
  obtain ⟨y', m', hl', he'⟩ := h.procBlocks_eq hp hk hms (htotal ▸ hq)
  rw [← htotal] at hl' he'
  obtain ⟨rfl, rfl⟩ := Prod.mk.inj (Except.ok.inj (hl.symm.trans hl'))
  exact ⟨_, _, he, he', rfl, rfl, rfl, rfl⟩

/-- Settles O35: with `MIX = 0` the blend is the dry sample. -/
theorem dryPassthrough : Obligations.DryPassthrough := by
  intro s n hp hk h hmix hn hq
  obtain ⟨y, m, hl, he⟩ := h.exec_proc hp hk hn hq
  exact ⟨_, he, congrArg _ (delayLoop_of_mix_zero hmix hl)⟩

/-- Settles O55, by the modulo form of the span address. -/
theorem twoSpansGiveTheModuloAddresses : Obligations.TwoSpansGiveTheModuloAddresses := by
  intro cur d n hcur hn
  have hmod := fun i hi => spanAddr_eq_mod (i := i) hcur hn hi
  refine ⟨fun i hi => ⟨hmod i hi, ?_⟩, fun i hi j hj he => ?_, ?_, ?_⟩
  · rw [hmod i hi]
    exact Nat.mod_lt _ (Nat.zero_lt_of_lt hcur)
  · rw [hmod i hi, hmod j hj] at he
    exact add_mod_inj (hi.trans_le hn) (hj.trans_le hn) he
  · exact Nat.add_sub_of_le (Nat.min_le_left n (d - cur))
  · unfold firstSpan
    omega

end Sys2Proof.Proofs
end

section
/-! The delay line as a stream (43_delayline.md R178, R180): the loop over the buffer of `D` words is the recurrence
over an unbounded history, and what the recurrence gives for a pure delay and for the echoes of an impulse. -/

namespace Sys2Proof.Machine

variable {p : Params} {c : ConfigRegs} {d : Nat}

/-! ### What the buffer holds of a history (R178) -/

@[simp] theorem lastStored_nil (d a : Nat) : lastStored d a [] = 0 := rfl

/-- A stored value is the last one at its own address and at no other. -/
theorem lastStored_concat (d a : Nat) (hist : List Sample) (v : Sample) :
    lastStored d a (hist ++ [v]) = if hist.length % d = a then v else lastStored d a hist := by
  rw [lastStored, List.length_append, List.length_singleton, List.range_succ, List.reverse_concat, List.find?_cons]
  by_cases ha : hist.length % d = a
  · simp [ha]
  · simp only [ha, decide_false, if_false, lastStored]
    cases hu : (List.range hist.length).reverse.find? (fun u => decide (u % d = a)) with
    | none => rfl
    | some u =>
      have hlt : u < hist.length := by simpa using List.mem_of_find?_eq_some hu
      exact List.getD_append _ _ _ _ hlt

/-- The last value stored at an address is the one no later index shares the address with. -/
theorem lastStored_of_greatest {hist : List Sample} {u : Nat} (hu : u < hist.length)
    (hlast : ∀ v, u < v → v < hist.length → v % d ≠ u % d) : lastStored d (u % d) hist = hist.getD u 0 := by
  induction hist using List.reverseRecOn with
  | nil => simp at hu
  | append_singleton hist v ih =>
    rw [List.length_append, List.length_singleton] at hu hlast
    rw [lastStored_concat]
    obtain hlt | rfl := Nat.lt_succ_iff_lt_or_eq.1 hu
    · rw [if_neg (hlast _ hlt (Nat.lt_succ_self _)), ih hlt fun w hw hw' => hlast w hw (hw'.trans (Nat.lt_succ_self _)),
        List.getD_append _ _ _ _ hlt]
    · simp

/-- An address at or above the length of the history has had no store yet. -/
theorem lastStored_of_length_le {a : Nat} {hist : List Sample} (h : hist.length ≤ a) : lastStored d a hist = 0 := by
  induction hist using List.reverseRecOn with
  | nil => rfl
  | append_singleton hist v ih =>
    rw [List.length_append, List.length_singleton] at h
    rw [lastStored_concat, if_neg ((Nat.mod_le _ _).trans_lt h).ne, ih (by omega)]

/-- The word the next sample's address holds is the value stored `D` samples ago (R172, R178). -/
theorem lastStored_next (hd : 0 < d) (hist : List Sample) :
    lastStored d (hist.length % d) hist = delayedBy d hist := by
  unfold delayedBy
  split
  · rename_i hlt
    rw [Nat.mod_eq_of_lt hlt, lastStored_of_length_le le_rfl]
  · rename_i hge
    rw [Nat.mod_eq_sub_mod (not_lt.1 hge)]
    refine lastStored_of_greatest (by omega) fun v hv hv' => ?_
    obtain ⟨k, rfl⟩ := Nat.exists_eq_add_of_lt hv
    exact add_succ_mod_ne (d := d) (hist.length - d) (by omega)

/-- The buffer holds at each address of the delay line the last value stored there. -/
def HoldsHistory (d : Nat) (hist : List Sample) (m : Memory) : Prop :=
  ∀ a < d, m.read a = some (lastStored d a hist)

/-- The store of the next sample's turn keeps the buffer and the history together. -/
theorem HoldsHistory.write {hist : List Sample} {m : Memory} (h : HoldsHistory d hist m) (v : Sample) :
    HoldsHistory d (hist ++ [v]) (m.write (hist.length % d) v) := by
  intro a ha
  rw [lastStored_concat]
  by_cases e : hist.length % d = a
  · rw [if_pos e, e, Memory.read_write_same]
  · rw [if_neg e, Memory.read_write_other m v (Ne.symm e), h a ha]

/-- The loop from the end of a history on gives the outputs of the recurrence and holds its history. -/
theorem delayLoop_eq_refRun (hd : 0 < d) {hist xs ys : List Sample} {m m' : Memory} (hm : HoldsHistory d hist m)
    (hl : delayLoop p c 0 d hist.length xs m = .ok (ys, m')) :
    ys = (refRun p c d hist xs).1 ∧ HoldsHistory d (refRun p c d hist xs).2 m' := by
  induction xs generalizing hist ys m with
  | nil =>
    simp only [delayLoop_nil, Except.ok.injEq, Prod.mk.injEq] at hl
    obtain ⟨rfl, rfl⟩ := hl
    exact ⟨rfl, hm⟩
  | cons x xs ih =>
    obtain ⟨wet, zs, -, hread, hrest, rfl⟩ := delayLoop_cons_ok.1 hl
    rw [Nat.zero_add] at hread hrest
    obtain rfl : delayedBy d hist = wet := by
      rw [← lastStored_next hd]
      exact Option.some.inj ((hm _ (Nat.mod_lt _ hd)).symm.trans hread)
    obtain ⟨rfl, hm'⟩ := ih (hm.write (updateWord p c (delayedBy d hist) x)) (by rw [List.length_append]; exact hrest)
    exact ⟨rfl, hm'⟩

/-- The recurrence of R178 over the first `j` samples of `IN_Q`: its outputs and its stored values. -/
def State.reference (s : State) (j : Nat) : List Sample × List Sample :=
  refRun s.params s.cfg s.cfg.dlen.toNat [] (s.inQ.take j)

/-- A run of legal blocks from zeros and cursor 0 is the recurrence (R178). -/
theorem DelayReady.procBlocks_eq_reference {s : State} (h : DelayReady s) (hp : s.phase = .stream)
    (hk : s.cfg.kind = .delay) (hcur : s.cursor = 0) (hzero : ∀ a < s.cfg.dlen.toNat, s.buf.read a = some 0)
    {ns : List (BitVec 24)} (hns : ∀ n ∈ ns, n.toNat ≤ s.cfg.blockSize.toNat) (hq : totalSamples ns ≤ s.inQ.length) :
    ∃ m, HoldsHistory s.cfg.dlen.toNat (s.reference (totalSamples ns)).2 m ∧
      procBlocks ns s =
        .next (s.afterBlocks ns.length (totalSamples ns) (s.reference (totalSamples ns)).1 m) := by
  obtain ⟨y, m, hl, he⟩ := h.procBlocks_eq hp hk hns hq
  rw [State.runLoop, hcur] at hl
  obtain ⟨rfl, hm⟩ := delayLoop_eq_refRun h.dlen_pos (hist := []) hzero hl
  exact ⟨m, hm, he⟩

/-! ### The recurrence, index by index (R178) -/

/-- `w_t = s_{t-D}` of a sequence of stored values, and 0 for a negative index. -/
def delayedSeq (d : Nat) (σ : Nat → Sample) (t : Nat) : Sample := if t < d then 0 else σ (t - d)

/-- Both ways to say `w_t` agree. -/
theorem delayedBy_map_range (hd : 0 < d) (σ : Nat → Sample) (t : Nat) :
    delayedBy d ((List.range t).map σ) = delayedSeq d σ t := by
  rw [delayedBy, delayedSeq, List.length_map, List.length_range]
  split
  · rfl
  · rw [List.getD_eq_getElem _ _ (by rw [List.length_map, List.length_range]; omega), List.getElem_map,
      List.getElem_range]

/-- A sequence that meets `s_t = update(w_t, x_t)` is what the recurrence stores, so output `t` is `blend(x_t, w_t)`. -/
theorem refRun_getElem? (hd : 0 < d) {σ : Nat → Sample} {t : Nat} {xs : List Sample}
    (hσ : ∀ k x, xs[k]? = some x → σ (t + k) = updateWord p c (delayedSeq d σ (t + k)) x) {k : Nat} {x : Sample}
    (hx : xs[k]? = some x) :
    (refRun p c d ((List.range t).map σ) xs).1[k]? = some (blendWord p c x (delayedSeq d σ (t + k))) := by
  induction xs generalizing t k with
  | nil => simp at hx
  | cons x₀ xs ih =>
    have hstore : (List.range t).map σ ++ [updateWord p c (delayedSeq d σ t) x₀] = (List.range (t + 1)).map σ := by
      have hnow : σ t = updateWord p c (delayedSeq d σ t) x₀ := hσ 0 x₀ rfl
      rw [List.range_succ, List.map_append, List.map_singleton, hnow]
    simp only [refRun, delayedBy_map_range hd, hstore]
    cases k with
    | zero =>
      obtain rfl : x₀ = x := Option.some.inj hx
      rfl
    | succ k =>
      have htail : ∀ k x, xs[k]? = some x → σ (t + 1 + k) = updateWord p c (delayedSeq d σ (t + 1 + k)) x :=
        fun k x hk => by simpa [Nat.add_assoc, Nat.add_comm 1] using hσ (k + 1) x (by simpa using hk)
      have := ih htail (k := k) (by simpa using hx)
      simpa [Nat.add_assoc, Nat.add_comm 1] using this

/-! ### The full mix (R180) -/

theorem blendWord_of_mix_one (h : c.mix = 32768) (dry wet : Sample) : blendWord p c dry wet = wet := by
  rw [blendWord, blend_of_exact p (blendNum_of_mix_one h _ _), toPattern_cast16_sext16]

theorem updateWord_of_feedback_zero (h : c.feedback = 0) (old dry : Sample) : updateWord p c old dry = dry := by
  rw [updateWord, update_of_exact p (updateNum_of_feedback_zero h _ _), toPattern_cast16_sext16]

/-- What follows a silent word is the dry sample. -/
theorem updateWord_zero_old (dry : Sample) : updateWord p c 0 dry = dry := by
  have hnum : updateNum c (sext16 0) (sext16 dry) = sext16 dry * one := by simp [updateNum, sext16]
  rw [updateWord, update_of_exact p hnum, toPattern_cast16_sext16]

/-- A word that meets no new sample is fed back (R180 (b)). -/
theorem updateWord_zero_dry (old : Sample) :
    updateWord p c old 0 = toPattern (cast16 c.sat (quant p.castRnd (sext16 old * gain c.feedback))) := by
  simp [updateWord, update, updateNum, sext16]

/-- With full mix, from zeros and cursor 0, the output of legal blocks is any sequence that meets the recurrence of the
stored values, delayed by `D`. -/
theorem DelayReady.procBlocks_fullMix {s : State} (h : DelayReady s) (hp : s.phase = .stream)
    (hk : s.cfg.kind = .delay) (hcur : s.cursor = 0) (hmix : s.cfg.mix = 32768)
    (hzero : ∀ a < s.cfg.dlen.toNat, s.buf.read a = some 0) {ns : List (BitVec 24)}
    (hns : ∀ n ∈ ns, n.toNat ≤ s.cfg.blockSize.toNat) (hq : totalSamples ns ≤ s.inQ.length) {σ : Nat → Sample}
    (hσ : ∀ k < totalSamples ns, ∀ x, s.inQ[k]? = some x →
      σ k = updateWord s.params s.cfg (delayedSeq s.cfg.dlen.toNat σ k) x) :
    ∃ t, procBlocks ns s = .next t ∧
      ∀ k < totalSamples ns, t.outT[s.outT.length + k]? = some (delayedSeq s.cfg.dlen.toNat σ k) := by
  obtain ⟨m, -, he⟩ := h.procBlocks_eq_reference hp hk hcur hzero hns hq
  refine ⟨_, he, fun k hlt => ?_⟩
  have hx : (s.inQ.take (totalSamples ns))[k]? = some s.inQ[k] := by
    rw [List.getElem?_take_of_lt hlt, List.getElem?_eq_getElem]
  have hout : (s.reference (totalSamples ns)).1[k]? = some (blendWord s.params s.cfg _ (delayedSeq _ σ (0 + k))) :=
    refRun_getElem? (t := 0) h.dlen_pos (fun j x hj => by
      obtain ⟨hlt, hxj⟩ : j < totalSamples ns ∧ s.inQ[j]? = some x := by simpa [List.getElem?_take] using hj
      rw [Nat.zero_add]
      exact hσ j hlt x hxj) hx
  rw [State.afterBlocks, List.getElem?_append_right (Nat.le_add_right _ _), Nat.add_sub_cancel_left, hout,
    blendWord_of_mix_one hmix, Nat.zero_add]

/-! ### The echoes of an impulse (R180 (b)) -/

/-- The stored values for an impulse at sample 0: the next echo at each multiple of `D`, silence between them. -/
def echoStored (d : Nat) (e : Nat → Int) (t : Nat) : Sample := if t % d = 0 then toPattern (e (t / d + 1)) else 0

/-- Delayed by `D`, the stored values are the echoes: `e_j` at `j * D` for `j >= 1` and silence elsewhere. -/
theorem delayedSeq_echoStored (hd : 0 < d) (e : Nat → Int) (t : Nat) :
    delayedSeq d (echoStored d e) t = if t % d = 0 ∧ 1 ≤ t / d then toPattern (e (t / d)) else 0 := by
  unfold delayedSeq
  split
  · rename_i hlt
    simp [Nat.div_eq_of_lt hlt]
  · rename_i hge
    obtain ⟨u, rfl⟩ := Nat.exists_eq_add_of_le' (not_lt.1 hge)
    simp [echoStored, Nat.add_div_right _ hd]

/-- The recursion of the echoes stays among the sample values (R117). -/
theorem echo_range {A : Sample} {e : Nat → Int} (he₁ : e 1 = sext16 A)
    (he : ∀ j, 1 ≤ j → e (j + 1) = cast16 c.sat (quant p.castRnd (e j * gain c.feedback))) {j : Nat} (hj : 1 ≤ j) :
    -32768 ≤ e j ∧ e j ≤ 32767 := by
  obtain rfl | hlt := hj.eq_or_lt
  · exact he₁ ▸ sext16_range A
  · obtain ⟨i, rfl⟩ := Nat.exists_eq_add_of_le' hj
    rw [he i (by omega)]
    exact cast16_range _ _

/-- While the input is silent, the stored values are the echoes fed back. -/
theorem echoStored_eq_updateWord {A : Sample} {e : Nat → Int} (he₁ : e 1 = sext16 A)
    (he : ∀ j, 1 ≤ j → e (j + 1) = cast16 c.sat (quant p.castRnd (e j * gain c.feedback))) (hd : 0 < d) {t : Nat}
    (ht : 0 < t) : echoStored d e t = updateWord p c (delayedSeq d (echoStored d e) t) 0 := by
  rw [delayedSeq_echoStored hd, echoStored]
  by_cases hm : t % d = 0
  · have hdiv : 1 ≤ t / d := Nat.div_pos (Nat.le_of_dvd ht (Nat.dvd_of_mod_eq_zero hm)) hd
    obtain ⟨hlo, hhi⟩ := echo_range he₁ he hdiv
    rw [if_pos hm, if_pos ⟨hm, hdiv⟩, updateWord_zero_dry, sext16_toPattern hlo hhi, he _ hdiv]
  · rw [if_neg hm, if_neg fun h => hm h.1, updateWord_zero_old]

end Sys2Proof.Machine

namespace Sys2Proof.Proofs

open Sys2Proof.Machine

/-- Settles O56: the blocks are one loop, and the loop keeps the buffer and the unbounded history together. -/
theorem delayLineIsTheUnboundedRecurrence : Obligations.DelayLineIsTheUnboundedRecurrence := by
  intro s ns hp hk h hcur hzero hns hq
  obtain ⟨m, hm, he⟩ := h.procBlocks_eq_reference hp hk hcur hzero hns hq
  have hpos := nextCursor_toNat s.cursor (totalSamples ns) h.dlen_pos
  exact ⟨_, he, rfl, hm, hpos.trans (by simp [hcur]), rfl⟩

/-- Settles O58: without feedback the samples themselves meet the recurrence of the stored values. -/
theorem pureDelayReproducesTheInput : Obligations.PureDelayReproducesTheInput := by
  intro s ns hp hk h hcur hmix hfb hzero hns hq
  obtain ⟨t, he, hout⟩ := h.procBlocks_fullMix hp hk hcur hmix hzero hns hq (σ := fun k => s.inQ.getD k 0)
    fun k _ x hx => by simp [updateWord_of_feedback_zero hfb, hx]
  refine ⟨t, he, fun k hlt => (hout k hlt).trans ?_⟩
  unfold delayedSeq
  split
  · rfl
  · have hin : k - s.cfg.dlen.toNat < s.inQ.length := by omega
    simp [hin]

/-- Settles O59: the impulse and the words fed back meet the recurrence of the stored values. -/
theorem echoesDecayByTheFeedback : Obligations.EchoesDecayByTheFeedback := by
  intro s ns A e hp hk h hcur hmix hzero hns hq hA hsilent he₁ he
  have hd := h.dlen_pos
  have hσ : ∀ k < totalSamples ns, ∀ x, s.inQ[k]? = some x → echoStored s.cfg.dlen.toNat e k =
      updateWord s.params s.cfg (delayedSeq s.cfg.dlen.toNat (echoStored s.cfg.dlen.toNat e) k) x := by
    intro k hlt x hx
    obtain rfl | hpos := k.eq_zero_or_pos
    · obtain rfl : A = x := Option.some.inj (hA.symm.trans hx)
      have hfirst : echoStored s.cfg.dlen.toNat e 0 = A := by
        rw [echoStored, Nat.zero_mod, if_pos rfl, Nat.zero_div, he₁]
        exact toPattern_sext16 A
      rw [hfirst, delayedSeq, if_pos hd, updateWord_zero_old]
    · obtain rfl : 0 = x := Option.some.inj ((hsilent k hpos hlt).symm.trans hx)
      exact echoStored_eq_updateWord he₁ he hd hpos
  obtain ⟨t, hrun, hout⟩ := h.procBlocks_fullMix hp hk hcur hmix hzero hns hq hσ
  exact ⟨t, hrun, fun k hlt => (hout k hlt).trans (congrArg some (delayedSeq_echoStored hd e k))⟩

end Sys2Proof.Proofs
end

section
/-! The effects beside the delay line (44_other_effects.md): how many words each transform answers, the distortion and
the passthrough of a mono block, and the two outcomes of a `PROC` that has a step. -/

namespace Sys2Proof.Machine

/-- The passthrough kind is the only one that runs the passthrough transform (R197). -/
theorem EffectKind.transform_eq_passthrough_iff (k : EffectKind) :
    k.transform = some .passthroughStereo ↔ k = .passthroughStereo := by
  cases k <;> decide

/-- A distorted sample with its formula written out (R190). -/
theorem distWord_eq (p : Params) (c : ConfigRegs) (u : Sample) :
    distWord p c u = BitVec.ofInt 16 (cast16 c.sat (rne p.distTies (u.toInt * c.volume.toNat))) := rfl

/-- A transform answers one word a sample, the passthrough one on each channel (R190, R195, 43_delayline.md R171). -/
theorem runTransform_length {tr : Transform} {x y : List Sample} {s t : State} (h : runTransform tr x s = .ok (y, t)) :
    y.length = if tr = .passthroughStereo then 2 * x.length else x.length := by
  rcases runTransform_ok h with ⟨rfl, rfl, -⟩ | ⟨rfl, rfl, -⟩ | ⟨rfl, -, m, hl, -⟩
  · exact List.length_map _
  · exact passthroughBlock_length x
  · exact delayLoop_length hl

/-- A transform leaves the phase and the input queue alone (42_stream_commands.md R157). -/
theorem runTransform_keeps_phase_inQ {tr : Transform} {x y : List Sample} {s t : State}
    (h : runTransform tr x s = .ok (y, t)) : t.phase = s.phase ∧ t.inQ = s.inQ := by
  rw [(runTransform_frame h).1]
  exact ⟨rfl, rfl⟩

end Sys2Proof.Machine

namespace Sys2Proof.Proofs

open Sys2Proof.Machine

/-- Settles O31: the checks pass, the samples are there, and the distortion of the popped block is a map. -/
theorem procDistortionMapsTheBlock : Obligations.ProcDistortionMapsTheBlock := by
  intro s n hp hk hn hq
  have hrun : exec (.proc 0 n) s =
      .next ((s.popCmd.popIn n.toNat).pushOut (distortionBlock s.params s.cfg (s.inQ.take n.toNat))) :=
    execProc_run (tr := .distortion) hp (by rw [hk]; rfl) (by rw [hk]; rfl) hn hq rfl
  simp only [← distWord_eq]
  exact hrun

/-- Settles O32: a mono block runs the passthrough transform, and a stereo block fails the first check. -/
theorem procPassthroughDuplicatesTheBlock : Obligations.ProcPassthroughDuplicatesTheBlock := by
  intro s n hp hk
  refine ⟨fun hn hq => ⟨passthroughBlock (s.inQ.take n.toNat), ?run, ?length, fun i hi => ?channels⟩, ?stereo⟩
  case run => exact execProc_run (tr := .passthroughStereo) hp (by rw [hk]; rfl) (by rw [hk]; rfl) hn hq rfl
  case length => rw [passthroughBlock_length, List.length_take_of_le hq]
  case channels =>
    rw [← List.getElem?_take_of_lt hi]
    exact passthroughBlock_getElem? _ i (by rwa [List.length_take_of_le hq])
  case stereo =>
    have hshape := (procChecksShapeThenReverbThenLength s n hp).1 (by rw [hk]; decide)
    rw [← s.cfg.kind_num, hk] at hshape
    exact hshape

/-- Settles O37: in STREAM a `PROC` with a step is a fault entry or a whole transformed block. -/
theorem procProducesItsWholeBlockOrFaults : Obligations.ProcProducesItsWholeBlockOrFaults := by
  intro s t ch n hp h
  obtain ⟨c, info, -, rfl⟩ | ⟨tr, y, s', hc, hl, hr, rfl⟩ := execProc_stream_next hp h
  · exact .inl ⟨rfl, rfl, rfl, rfl, rfl⟩
  · obtain ⟨rfl, -, -⟩ := procChecks_pass_iff.1 ⟨tr, hc⟩
    rw [blockWords_mono] at hl hr
    obtain ⟨-, htr, -⟩ := procChecks_ok hc
    obtain ⟨hphase, hin⟩ := runTransform_keeps_phase_inQ hr
    obtain ⟨-, -, hout, -⟩ := runTransform_keeps hr
    have hkind : tr = .passthroughStereo ↔ s.cfg.kind = .passthroughStereo := by
      rw [← s.cfg.kind.transform_eq_passthrough_iff, htr, Option.some_inj]
    have hlen := runTransform_length hr
    rw [List.length_take_of_le hl] at hlen
    refine .inr ⟨hphase.trans hp, rfl, hin, hl, ?_⟩
    simp only [State.pushOut_outT, List.length_append, hout, State.popIn_outT, State.popCmd_outT, hlen, hkind]

end Sys2Proof.Proofs
end

section
/-! Faults and the FAULT phase (60_exceptions.md): which words only leave `CMD_Q` in FAULT, what a step there can do
before an `RST`, and what a step into FAULT writes. -/

namespace Sys2Proof.Machine

open Sys2Proof.Claims

/-- An illegal word is dropped in FAULT (R216, R224). -/
theorem illegalWord_fault {v : Illegal} {w : CmdWord} {s : State} (h : s.phase = .fault) :
    illegalWord v w s = .next s.popCmd := if_pos h

/-- In FAULT only `RST` and the `RDR` of a register do more than leave `CMD_Q` (R224). -/
theorem exec_fault {i : Instr} {s : State} (hp : s.phase = .fault) (hrst : i ≠ .rst)
    (hrdr : ∀ r, i = .rdr r → 12 < r.toNat) : exec i s = .next s.popCmd := by
  cases i with
  | nop => rfl
  | wrc r v =>
    show execWrc r v s = _
    unfold execWrc
    split
    · exact illegalWord_fault hp
    · exact inPhase_fault hp
  | rdr r => exact (exec_rdr_bad (hrdr r rfl) s).trans (congrArg Host.Outcome.next (if_pos hp))
  | rst => exact absurd rfl hrst
  | init | openStream rate | proc ch n | endStream =>
    unfold exec
    exact inPhase_fault hp
  | reserved7 x | reserved8 x | reserved9 x | reservedA x | reservedB x | reservedC x | reservedD x | reservedE x =>
    exact illegalWord_fault hp

/-- In FAULT a step that is no `RST` drops its word or answers a register read (R224). -/
theorem step_next_fault {s t : State} (hp : s.phase = .fault) (h : step s = .next t)
    (hr : s.cmdQ.head? ≠ some 0xF0000000) : t = s.popCmd ∨ ∃ x, t = s.popCmd.pushRsp x := by
  obtain ⟨w, q, hq, ⟨i, hd, he⟩ | ⟨v, -, hv⟩⟩ := step_next h
  · by_cases hreg : ∃ r : RegNum, i = .rdr r ∧ r.toNat ≤ 12
    · obtain ⟨r, rfl, hle⟩ := hreg
      obtain ⟨x, hx⟩ := s.readReg_some hle
      rw [exec_rdr_of_readReg hx] at he
      exact .inr ⟨x, (Host.Outcome.next.inj he).symm⟩
    · have hrdr : ∀ r, i = .rdr r → 12 < r.toNat := fun r hi => not_le.1 fun hle => hreg ⟨r, hi, hle⟩
      rw [exec_fault hp (ne_rst_of_head hq hr hd) hrdr] at he
      exact .inl (Host.Outcome.next.inj he).symm
  · rw [illegalWord_fault hp] at hv
    exact .inl (Host.Outcome.next.inj hv).symm

/-- No own effect enters FAULT: only a fault entry does (R222). -/
theorem OwnEffect.phase_ne_fault {s t : State} {i : Instr} (h : OwnEffect s t i) (hf : s.phase ≠ .fault) :
    t.phase ≠ .fault := by
  rcases h.phase with hp | ⟨-, hp, -⟩ | ⟨-, hp, -⟩ | ⟨-, hp, -⟩ | ⟨hp, -⟩ <;> rw [hp]
  · exact hf
  all_goals decide

end Sys2Proof.Machine

namespace Sys2Proof.Proofs

open Sys2Proof.Machine

/-- Settles O11: a phase check, an illegal word and `NOP` all drop the word in FAULT. -/
theorem faultPhaseDropsOtherCommands : Obligations.FaultPhaseDropsOtherCommands := fun _ _ => exec_fault

/-- Settles O12: neither a drop nor a response touches any of these fields. -/
theorem faultRecordIsKeptUntilRst : Obligations.FaultRecordIsKeptUntilRst := by
  intro s t hp hs hr
  obtain rfl | ⟨x, rfl⟩ := step_next_fault hp hs hr
  · exact ⟨hp, rfl, rfl, rfl, rfl, rfl, rfl, rfl, rfl⟩
  · exact ⟨hp, rfl, rfl, rfl, rfl, rfl, rfl, rfl, rfl⟩

/-- Settles O39: only a fault entry enters FAULT, and the word it records, read back from the instruction or not, is the
head word. -/
theorem faultsArePrecise : Obligations.FaultsArePrecise := by
  intro s t hs hf ht
  obtain ⟨w, q, hq, ⟨hp, -⟩ | ⟨-, c, info, w', rfl, hw⟩ | ⟨i, -, ho⟩⟩ := step_next_cases hs
  · exact absurd hp hf
  · have hword : w' = w := by
      obtain rfl | ⟨i, hd, rfl⟩ := hw
      · rfl
      · exact encode_eq_of_decode hd
    subst hword
    exact ⟨w', c.kind, c.sub, info, by rw [hq]; rfl, c.kind_ne_none, c.sub_ne_zero, rfl⟩
  · exact absurd ht (ho.phase_ne_fault hf)

end Sys2Proof.Proofs
end

section
/-! Resets and schedules (70_reset_and_hazards.md R240, R258, R260): what the hardware reset leaves, and that a schedule
without resets only decides how far the engine gets on the one path from the state with every word of the host
already appended. -/

namespace Sys2Proof.Machine

open Relation (ReflTransGen)

/-! ### The hardware reset -/

@[simp] theorem State.status_hardwareReset (s : State) : s.hardwareReset.status = 0 :=
  show State.reset.status = 0 by decide

theorem State.readReg_hardwareReset (s : State) {r : RegNum} (hr : r.toNat ≤ 11) :
    s.hardwareReset.readReg r = some 0 := by
  unfold State.readReg
  generalize r.toNat = k at *
  interval_cases k <;> simp [ConfigRegs.zero]

theorem StateInv.hardwareReset {s : State} (h : StateInv s) : StateInv s.hardwareReset where
  paramsOk := h.paramsOk
  bufWf := Memory.wf_reset
  bufInRange := by simp
  faultIff := by simp
  noRecord := by simp
  cursorZero := by simp
  constructed := by simp
  delayReady := by simp

theorem StateInv.hostAct {s : State} (h : StateInv s) : ∀ a : HostAction, StateInv (hostAct a s)
  | .appendCmd w => h.withQueues (s.cmdQ ++ [w]) s.rspT s.inQ s.outT
  | .appendSample u => h.withQueues s.cmdQ s.rspT (s.inQ ++ [u]) s.outT
  | .hardwareReset => h.hardwareReset

/-! ### The steps of the engine alone -/

/-- The engine has a step from `s`, and it leaves `t`. -/
def StepsTo (s t : State) : Prop := step s = .next t

theorem stepsTo_rightUnique : Relator.RightUnique StepsTo := fun _ _ _ h h' =>
  Host.Outcome.next.inj (h.symm.trans h')

theorem not_stepsTo_of_cmdQ_nil {s : State} (hq : s.cmdQ = []) (t : State) : ¬ StepsTo s t := by
  simp [StepsTo, step_nil hq]

/-- The engine comes to an empty `CMD_Q` in one state only. -/
theorem eq_of_reaches_cmdQ_nil {s t t' : State} (h : ReflTransGen StepsTo s t) (h' : ReflTransGen StepsTo s t')
    (hq : t.cmdQ = []) (hq' : t'.cmdQ = []) : t = t' := by
  rcases ReflTransGen.total_of_right_unique stepsTo_rightUnique h h' with hto | hto
  · exact ((Relation.reflTransGen_iff_eq (not_stepsTo_of_cmdQ_nil hq)).1 hto).symm
  · exact (Relation.reflTransGen_iff_eq (not_stepsTo_of_cmdQ_nil hq')).1 hto

theorem sysStep_engine (s : State) : StepsTo s (sysStep .engine s) ∨ sysStep .engine s = s := by
  unfold StepsTo sysStep
  cases step s with
  | next t => exact .inl rfl
  | fault f => exact .inr rfl
  | refused r => exact .inr rfl

/-! ### The words of the host, appended ahead of time -/

/-- The state with words of the host appended behind both queues. -/
def State.feed (s : State) (cs : List CmdWord) (us : List Sample) : State :=
  { s with cmdQ := s.cmdQ ++ cs, inQ := s.inQ ++ us }

theorem State.feed_nil (s : State) : s.feed [] [] = s := by simp [State.feed]

theorem State.feed_appendCmd (s : State) (w : CmdWord) (cs : List CmdWord) (us : List Sample) :
    (hostAct (.appendCmd w) s).feed cs us = s.feed (w :: cs) us := by simp [State.feed, hostAct]

theorem State.feed_appendSample (s : State) (u : Sample) (cs : List CmdWord) (us : List Sample) :
    (hostAct (.appendSample u) s).feed cs us = s.feed cs (u :: us) := by simp [State.feed, hostAct]

/-- Words that the host appends before the step are there after it (R38). -/
theorem StepsTo.feed {s t : State} (h : StepsTo s t) (hr : (0xF0000000 : CmdWord) ∉ s.cmdQ) (cs : List CmdWord)
    (us : List Sample) : StepsTo (s.feed cs us) (t.feed cs us) :=
  Proofs.stepIgnoresLaterQueueWords s t cs us h fun hh => hr (List.mem_of_head? hh)

/-- What a schedule without resets reaches, the engine alone reaches from the state with all its words appended. -/
theorem reaches_sysRun {σ : List Event} (hσ : Event.host .hardwareReset ∉ σ) :
    ∀ {s : State}, (0xF0000000 : CmdWord) ∉ s.cmdQ → (0xF0000000 : CmdWord) ∉ appendedCmds σ →
      ReflTransGen StepsTo (s.feed (appendedCmds σ) (appendedSamples σ)) (sysRun σ s) := by
  induction σ with
  | nil => exact fun {s} _ _ => by rw [appendedCmds, appendedSamples, s.feed_nil, sysRun]
  | cons e σ ih =>
    obtain ⟨hne, hσ'⟩ := List.ne_and_not_mem_of_not_mem_cons hσ
    intro s hq ha
    cases e with
    | engine =>
      rcases sysStep_engine s with hs | hs
      · obtain ⟨w, hw⟩ := step_cmdQ hs
        have hq' : (0xF0000000 : CmdWord) ∉ (sysStep .engine s).cmdQ := fun hm =>
          hq (hw ▸ List.mem_cons_of_mem w hm)
        exact .head (hs.feed hq _ _) (ih hσ' hq' ha)
      · rw [sysRun, hs]
        exact ih hσ' hq ha
    | host a =>
      cases a with
      | appendCmd w =>
        obtain ⟨hw, ha'⟩ := List.ne_and_not_mem_of_not_mem_cons ha
        have hq' : (0xF0000000 : CmdWord) ∉ (hostAct (.appendCmd w) s).cmdQ := fun hm =>
          (List.mem_append.1 hm).elim hq fun hm' => hw (List.mem_singleton.1 hm')
        have hrun := ih hσ' hq' ha'
        rwa [s.feed_appendCmd] at hrun
      | appendSample u =>
        have hrun := ih (s := hostAct (.appendSample u) s) hσ' hq ha
        rwa [s.feed_appendSample] at hrun
      | hardwareReset => exact absurd rfl hne

end Sys2Proof.Machine

namespace Sys2Proof.Proofs

open Sys2Proof.Machine

/-- Settles O43: both schedules follow the engine's one path from the same state to its end. -/
theorem schedulesOfOneRunAgree : Obligations.SchedulesOfOneRunAgree := by
  intro s σ τ hcmds hsamples hσ hτ hs ha hqσ hqτ
  have hrunσ := reaches_sysRun hσ hs ha
  have hrunτ := reaches_sysRun hτ hs (hcmds ▸ ha)
  rw [← hcmds, ← hsamples] at hrunτ
  exact eq_of_reaches_cmdQ_nil hrunσ hrunτ hqσ hqτ

/-- Settles O46, action by action. -/
theorem hostActionsKeepInv : Obligations.HostActionsKeepInv := fun _ a h => h.hostAct a

/-- Settles O25: every register of the reset state reads 0 but `ID`, and with an empty `CMD_Q` the engine is idle. -/
theorem hardwareResetColumn : Obligations.HardwareResetColumn := fun s =>
  ⟨fun _ => s.readReg_hardwareReset, rfl, rfl, s.status_hardwareReset, rfl, rfl, rfl, rfl, rfl, rfl, Memory.read_nil,
    step_nil rfl⟩

end Sys2Proof.Proofs
end
